-- ==== Sys2Proof/Word.lean ====
section
/-! DEFINITION. The widths of the values the spec names (00_scope.md R7, R8, R10, R11): all are unsigned bit vectors. -/

namespace Sys2Proof

/-- A byte: ACC, POLY, a table entry, a memory byte, IMM8, the DATA field (R10, R18, R37, R38). -/
abbrev Byte := BitVec 8

/-- A halfword: LEN, IMM16, a response word (R8, R37, R38). -/
abbrev Half := BitVec 16

/-- A command word (R36). -/
abbrev Word := BitVec 32

/-- A byte address of the host's memory (R7, `ADDR_WIDTH = 32`). -/
abbrev Addr := BitVec 32

end Sys2Proof
end

