-- ==== Sys2Proof/Config.lean ====
section
/-! DEFINITION. The parameters the spec leaves OPEN or to the platform (00_scope.md R5 to R10), and the free value.

No value of an opaque constant below can be seen by a proof: what holds of them holds of every value. -/

namespace Sys2Proof

/-- BIT_ORDER, the direction of the table generator's loop (R6). -/
inductive BitOrder where
  | msbFirst
  | lsbFirst
  deriving DecidableEq, Repr, Inhabited

/-- One range of readable byte addresses, both ends included; a range whose first is above its last holds no address.
DESIGN CHOICE (log 3): `Readable : Addr32 → Bool` (R9) is held as a list of such ranges; every predicate on 32-bit addresses is
the predicate of some list. -/
structure Region where
  first : Addr
  last  : Addr
  deriving DecidableEq, Repr, Inhabited

/-- The number of byte addresses, 2^32 (R7, R25). -/
def Config.addrSpace : Nat := 4294967296

/-- POLY_VALUE (R5): OPEN, "No value may be assumed". -/
opaque Config.polyValue : Byte

/-- BIT_ORDER of this engine (R6): OPEN. -/
opaque Config.bitOrder : BitOrder

/-- `Readable` of this platform (R9): a platform input the engine does not fix. -/
opaque Config.readable : List Region

/-- The free value: ACC after the n-th fault is "unspecified (any 8-bit value)" (60_exceptions.md R59; U9). Log 8. -/
opaque Config.freeByte : Nat → Byte

end Sys2Proof
end

