-- ==== Sys2Proof/Syntax.lean ====
section
/-! DEFINITION. The ten commands (30_encoding.md R39) and the lines of the spec's assembler (R41). -/

namespace Sys2Proof

/-- One constructor per row of spec/opcode_table.json. An operand has its field's width (R37), so no operand is out of range. -/
inductive Instr where
  | nop
  | init
  | update (imm8 : Byte)
  /-- CALC (`calc` alone is a word of Lean). -/
  | calcCrc
  | rdacc
  | rdpoly
  | rdtbl (imm8 : Byte)
  | setaddrl (imm16 : Half)
  | setaddrh (imm16 : Half)
  | setlen (imm16 : Half)
  deriving DecidableEq, Repr

/-- The three command formats (R36): no operand, byte operand, halfword operand. -/
inductive Format where
  | n
  | b
  | h
  deriving DecidableEq, Repr

/-- One line of assembly (R41): the ten commands, the raw word `.word W`, and the pseudo-instructions. Operands are the numerals
as written, of any size: WellFormed.lean says which of them the assembler refuses. -/
inductive AsmLine where
  | nop
  | init
  /-- The line `calc`. -/
  | calcCrc
  | rdacc
  | rdpoly
  | update (imm8 : Nat)
  | rdtbl (imm8 : Nat)
  | setaddrl (imm16 : Nat)
  | setaddrh (imm16 : Nat)
  | setlen (imm16 : Nat)
  | word (w : Nat)
  | setaddr (a : Nat)
  | crc (a l : Nat)
  | pktcrc (d l : Nat)
  deriving DecidableEq, Repr

end Sys2Proof
end

