-- ==== Sys2Proof/WellFormed.lean ====
section
/-! DEFINITION. Well-formedness of what a programmer writes (30_encoding.md R41).

An `Instr` needs no check: R37's operand widths are the types of its fields, and WHICH WORDS spell an instruction is
`decode` and `legal` of Decode.lean. What can be ill-formed is an assembly line, whose numerals may be too large. -/

namespace Sys2Proof

/-- IMM8 in 0..255 (R41). -/
def fitsImm8 (n : Nat) : Bool := decide (n < 256)

/-- IMM16, or a buffer length, in 0..65535 (R41). -/
def fitsImm16 (n : Nat) : Bool := decide (n < 65536)

/-- A raw word, or an address, in 0..2^32-1 (R41). -/
def fitsWord (n : Nat) : Bool := decide (n < 4294967296)

/-- The assembler accepts the line (R41). For the lines of formats B and H R41 says "otherwise the assembler refuses the line"; that
the ranges of `.word`, `setaddr`, `crc` and `pktcrc` are kept by refusal too is DEDUCED (log 22). -/
def AsmLine.wf : AsmLine → Bool
  | .nop | .init | .calcCrc | .rdacc | .rdpoly => true
  | .update n | .rdtbl n => fitsImm8 n
  | .setaddrl n | .setaddrh n | .setlen n => fitsImm16 n
  | .word w => fitsWord w
  | .setaddr a => fitsWord a
  | .crc a l | .pktcrc a l => fitsWord a && fitsImm16 l

end Sys2Proof
end

