-- ==== Sys2Proof/Decode.lean ====
section
/-! DEFINITION. Command words: their fields, the opcode table, the legality check, the decoder and the encoder
(30_encoding.md R36, R37, R39, R40). Decoding is total on all 2^32 words and refuses by name. -/

namespace Sys2Proof

/-! ### Fields (R36, R37) -/

/-- `OPC = cmd[31:24]`. -/
def opcField (w : Word) : Byte := w.extractLsb' 24 8

/-- `RSV = cmd[23:16]`. -/
def rsvField (w : Word) : Byte := w.extractLsb' 16 8

/-- `cmd[15:8]`, zero in a word of format B. -/
def hiField (w : Word) : Byte := w.extractLsb' 8 8

/-- `IMM8 = cmd[7:0]`. -/
def imm8Field (w : Word) : Byte := w.extractLsb' 0 8

/-- `IMM16 = cmd[15:0]`. -/
def imm16Field (w : Word) : Half := w.extractLsb' 0 16

/-! ### The opcode table and the legality check (R39, R40) -/

/-- A row of R39's table; `matchWord` is the column "match". -/
structure OpRow where
  mnemonic  : String
  format    : Format
  matchWord : Word
  mask      : Word
  deriving DecidableEq, Repr

/-- R39's table, row by row. -/
def opRows : List OpRow :=
  [ ⟨"NOP",      .n, 0x00000000#32, 0xFFFFFFFF#32⟩,
    ⟨"INIT",     .n, 0x01000000#32, 0xFFFFFFFF#32⟩,
    ⟨"UPDATE",   .b, 0x02000000#32, 0xFFFFFF00#32⟩,
    ⟨"CALC",     .n, 0x03000000#32, 0xFFFFFFFF#32⟩,
    ⟨"RDACC",    .n, 0x04000000#32, 0xFFFFFFFF#32⟩,
    ⟨"RDPOLY",   .n, 0x05000000#32, 0xFFFFFFFF#32⟩,
    ⟨"RDTBL",    .b, 0x06000000#32, 0xFFFFFF00#32⟩,
    ⟨"SETADDRL", .h, 0x07000000#32, 0xFFFF0000#32⟩,
    ⟨"SETADDRH", .h, 0x08000000#32, 0xFFFF0000#32⟩,
    ⟨"SETLEN",   .h, 0x09000000#32, 0xFFFF0000#32⟩ ]

/-- The word spells the row's instruction: `(cmd & mask) = match` (R39). -/
def OpRow.spells (r : OpRow) (w : Word) : Bool := w &&& r.mask == r.matchWord

/-- `Legal(cmd)`: some row matches (R40). -/
def legal (w : Word) : Bool := opRows.any fun r => r.spells w

/-! ### The decoder (R36, R37, R39, R40) -/

/-- Why a word is illegal (R40's list). The three are one outcome on the port, ILLEGAL: the response does not tell them apart
(log 18). -/
inductive Reject where
  /-- OPC is 0x0A to 0xFF. -/
  | reservedOpcode
  /-- RSV is not 0x00. -/
  | reservedField
  /-- Format N with `cmd[15:0] ≠ 0`, or format B with `cmd[15:8] ≠ 0`. -/
  | operandBits
  deriving DecidableEq, Repr

/-- A word of format N (R36). -/
def decodeN (w : Word) (i : Instr) : Except Reject Instr :=
  if rsvField w ≠ 0x00#8 then .error .reservedField
  else if imm16Field w ≠ 0x0000#16 then .error .operandBits
  else .ok i

/-- A word of format B (R36). -/
def decodeB (w : Word) (mk : Byte → Instr) : Except Reject Instr :=
  if rsvField w ≠ 0x00#8 then .error .reservedField
  else if hiField w ≠ 0x00#8 then .error .operandBits
  else .ok (mk (imm8Field w))

/-- A word of format H (R36). -/
def decodeH (w : Word) (mk : Half → Instr) : Except Reject Instr :=
  if rsvField w ≠ 0x00#8 then .error .reservedField
  else .ok (mk (imm16Field w))

/-- "A decoder finds the format from OPC = cmd[31:24] and needs nothing else" (R36); the opcodes are R39's. -/
def decode (w : Word) : Except Reject Instr :=
  match (opcField w).toNat with
  | 0x00 => decodeN w .nop
  | 0x01 => decodeN w .init
  | 0x02 => decodeB w .update
  | 0x03 => decodeN w .calcCrc
  | 0x04 => decodeN w .rdacc
  | 0x05 => decodeN w .rdpoly
  | 0x06 => decodeB w .rdtbl
  | 0x07 => decodeH w .setaddrl
  | 0x08 => decodeH w .setaddrh
  | 0x09 => decodeH w .setlen
  | _ => .error .reservedOpcode

/-! ### The encoder (R36, R39) -/

/-- The opcode of an instruction (R39, column OPC). -/
def Instr.opc : Instr → Byte
  | .nop => 0x00#8
  | .init => 0x01#8
  | .update _ => 0x02#8
  | .calcCrc => 0x03#8
  | .rdacc => 0x04#8
  | .rdpoly => 0x05#8
  | .rdtbl _ => 0x06#8
  | .setaddrl _ => 0x07#8
  | .setaddrh _ => 0x08#8
  | .setlen _ => 0x09#8

/-- The operand bits 15:0 of an instruction (R36: zero, IMM8 zero-extended, or IMM16). -/
def Instr.operand : Instr → Half
  | .nop | .init | .calcCrc | .rdacc | .rdpoly => 0x0000#16
  | .update b | .rdtbl b => 0x00#8 ++ b
  | .setaddrl h | .setaddrh h | .setlen h => h

/-- The word of an instruction: OPC, RSV = 0x00, operand bits (R36). -/
def encode (i : Instr) : Word := (i.opc ++ 0x00#8) ++ i.operand

/-! ### The host's view of the decoder -/

/-- The instruction the decoder reads from a word given as a number, bit 0 least significant. There is one length, 32 bits
(R36): a shorter row's missing bits are zero, and a longer number is no command word. -/
def decodeTableWord (nbits w : Nat) : Option Instr :=
  if nbits ≤ 32 ∧ w < 2 ^ nbits then (decode (BitVec.ofNat 32 w)).toOption else none

end Sys2Proof
end

