-- ==== Sys2Proof/Machine/State.lean ====
section
/-! DEFINITION. The engine's state (10_state.md R13, R24) with the model's arguments and records, the moves of the host
(60_exceptions.md R68), the response (30_encoding.md R38) and the state after reset. -/

namespace Sys2Proof.Machine

/-- The STATUS field of a response (R38, R57). There is no constructor for 0b11, which is "never returned" (U14). -/
inductive Status where
  | ok
  | illegal
  | fault
  deriving DecidableEq, Repr

/-- One response, before it is laid out as a 16-bit word (R38; `Response.word` of Machine/Flags.lean lays it out). -/
structure Response where
  status : Status
  data   : Byte
  deriving DecidableEq, Repr

/-- What the host may do (R68): present a command word, write a byte of its memory, assert reset, each between commands. A move
R68 does not allow (a write or a reset in the middle of a command) has no constructor (log 12). -/
inductive HostMove where
  | command (w : Word)
  | write (a : Addr) (b : Byte)
  | reset
  deriving DecidableEq, Repr

/-- The two exceptional outcomes (R57): `raise Illegal` and `raise Fault` of R12. -/
inductive Exceptional where
  | illegal
  | fault
  deriving DecidableEq, Repr

/-- Memory as the list of the addresses whose byte is not the one an unlisted address reads as, addresses rising. -/
abbrev Memory := List Host.Cell

/-- The machine. The first five fields with TABLE (computed from `poly` and `bitOrder`, log 10) are R13's list. -/
structure State where
  /-- ACC, the accumulator (R18). -/
  acc : Byte
  /-- POLY, the polynomial register, hardwired to POLY_VALUE (R17): no operation of the model writes it. Log 1. -/
  poly : Byte
  /-- ADDR, the buffer address (R20). -/
  addr : Addr
  /-- LEN, the buffer length in bytes (R20). -/
  len : Half
  /-- FAULTED, the sticky fault flag (R19). -/
  faulted : Bool
  /-- The parameter BIT_ORDER (R6), an argument of the model: no step changes it. Log 2. -/
  bitOrder : BitOrder
  /-- The parameter Readable (R9), an argument of the model: no step changes it. Log 3. -/
  readable : List Region
  /-- The host's memory, Mem (R9, R25). Only the host's move `write` changes it. Log 4. -/
  mem : Memory
  /-- The model's own: the host's moves not yet taken, oldest first. Log 5. -/
  inputs : List HostMove
  /-- The model's own: every response emitted so far, oldest first. Log 6. -/
  responses : List Response
  /-- The model's own: every address the memory port has read so far, oldest first (R30). Log 7. -/
  reads : List Nat
  /-- The model's own: how many free values have been drawn. Log 8. -/
  freeIdx : Nat
  deriving DecidableEq, Repr

/-- The machine stops with a fault: never. The spec's two exceptional outcomes are answers on the response port, after which the
engine goes on (R58, R59, R60), so the type has no constructor: no meaning raises anything here (safe). Log 16. -/
inductive Fault : Type
  deriving DecidableEq, Repr

/-- The machine has no meaning for an instruction. -/
inductive Refusal where
  /-- Raised only by an arm of `exec` whose instruction has no meaning yet (safe); no arm of this model raises it. -/
  | notModelled (mnemonic : String)
  deriving DecidableEq, Repr

/-- The three outcomes of the host's interface over this machine; every step of this one is a next state. -/
abbrev Outcome := Host.Outcome State Fault Refusal

/-- The state after reset (10_state.md R24): ACC, ADDR, LEN zero, FAULTED clear, POLY at POLY_VALUE. The other parameters are
the platform's; memory lists nothing, and the model's records are empty (logs 4 to 8). -/
def State.reset : State where
  acc := 0x00#8
  poly := Config.polyValue
  addr := 0x00000000#32
  len := 0x0000#16
  faulted := false
  bitOrder := Config.bitOrder
  readable := Config.readable
  mem := []
  inputs := []
  responses := []
  reads := []
  freeIdx := 0

end Sys2Proof.Machine
end

