-- ==== Sys2Proof/Machine/Flags.lean ====
section
/-! DEFINITION. The engine's one flag, FAULTED (10_state.md R19, R22: there is no other), and the STATUS field in which it
shows (30_encoding.md R38). -/

namespace Sys2Proof.Machine

/-- `FAULTED <- 1`, done only by a CALC that raises Fault (R19, R59). -/
def setFaulted (s : State) : State := { s with faulted := true }

/-- `FAULTED <- 0`, done only by reset (R19, R70). -/
def clearFaulted (s : State) : State := { s with faulted := false }

/-- The STATUS codes (R38). -/
def Status.code : Status → BitVec 2
  | .ok => 0b00#2
  | .illegal => 0b01#2
  | .fault => 0b10#2

/-- `response = zext_16({STATUS, DATA})` (R38). -/
def Response.word (r : Response) : Half := (r.status.code ++ r.data).setWidth 16

end Sys2Proof.Machine
end

