-- ==== Sys2Proof/Machine/Operands.lean ====
section
/-! DEFINITION. Operand forms: the two halves of ADDR (30_encoding.md R37; 41_register_access.md R49, R50), and the buffer that
ADDR and LEN name (20_memory.md R26, R30, R31). -/

namespace Sys2Proof.Machine

/-- `{ADDR[31:16], IMM16}` (R49). -/
def withLowHalf (a : Addr) (h : Half) : Addr := a.extractLsb' 16 16 ++ h

/-- `{IMM16, ADDR[15:0]}` (R50). -/
def withHighHalf (a : Addr) (h : Half) : Addr := h ++ a.extractLsb' 0 16

/-- The addresses of the buffer, `a + k` for k in 0..n-1, ascending (R30). They are numbers, so none wraps: `bufferFits`
bounds them. -/
def bufferAddrs (a : Addr) (n : Half) : List Nat := List.range' a.toNat n.toNat

/-- The buffer does not cross address 0xFFFFFFFF: `zext_33(ADDR) + zext_33(LEN) ≤ 2^32` (R31). -/
def bufferFits (a : Addr) (n : Half) : Bool := decide (a.toNat + n.toNat ≤ Config.addrSpace)

/-- The range holds the address. -/
def regionHolds (r : Region) (a : Nat) : Bool := decide (r.first.toNat ≤ a) && decide (a ≤ r.last.toNat)

/-- `Readable(a)` (R9, R26, R32): some range of the platform holds it. -/
def readableIn (rs : List Region) (a : Nat) : Bool := rs.any fun r => regionHolds r a

/-- Every byte of the buffer is admitted (R26, R30 step 2). -/
def bufferReadable (rs : List Region) (a : Addr) (n : Half) : Bool := (bufferAddrs a n).all fun k => readableIn rs k

end Sys2Proof.Machine
end

