-- ==== Sys2Proof/Machine/Table.lean ====
section
/-! DEFINITION. TABLE and the fold: the generator loops (10_state.md R14, R15, R16) and the computation
(40_crc_compute.md R42, R43). -/

namespace Sys2Proof.Machine

/-- One step of `TableGen_MSB` (R14): shift left; if bit 7 was set, XOR the polynomial in. -/
def shiftMsb (p c : Byte) : Byte := if c.getLsbD 7 then (c <<< 1) ^^^ p else c <<< 1

/-- One step of `TableGen_LSB` (R15): shift right; if bit 0 was set, XOR the polynomial in. -/
def shiftLsb (p c : Byte) : Byte := if c.getLsbD 0 then (c >>> 1) ^^^ p else c >>> 1

/-- One step of the generator's loop in the direction BIT_ORDER gives (R16). -/
def crcShift : BitOrder → Byte → Byte → Byte
  | .msbFirst, p, c => shiftMsb p c
  | .lsbFirst, p, c => shiftLsb p c

/-- `n` steps of the loop. -/
def crcShifts (o : BitOrder) (p : Byte) : Nat → Byte → Byte
  | 0, c => c
  | n + 1, c => crcShifts o p n (crcShift o p c)

/-- Entry `i` of the table: the register starts at `i` and runs the eight steps (R14, R15, R16; 90_conflicts.md C1). -/
def tableGen (o : BitOrder) (p i : Byte) : Byte := crcShifts o p 8 i

/-- `Fold(acc, b) = TABLE[acc ^ b]` (R42). -/
def crcFold (o : BitOrder) (p acc b : Byte) : Byte := tableGen o p (acc ^^^ b)

/-- The fold of a list of bytes from a given accumulator, in order (R43's loop). -/
def crcFoldList (o : BitOrder) (p acc : Byte) : List Byte → Byte
  | [] => acc
  | b :: bs => crcFoldList o p (crcFold o p acc b) bs

/-- `Calculate(d_0 .. d_{n-1})` (R43): the fold from 0x00, with nothing done to the result. -/
def calculate (o : BitOrder) (p : Byte) (ds : List Byte) : Byte := crcFoldList o p 0x00#8 ds

/-- `TABLE[i]` of the machine (R16). -/
def tableAt (s : State) (i : Byte) : Byte := tableGen s.bitOrder s.poly i

end Sys2Proof.Machine
end

