-- ==== Sys2Proof/Machine/Ops.lean ====
section
/-! DEFINITION. The named operations over memory, registers and the response port, taking an exceptional outcome and reset
(00_scope.md R12; 20_memory.md R25, R26; 60_exceptions.md R57 to R60; 70_reset_and_hazards.md R70). -/

namespace Sys2Proof.Machine

/-! ### Memory (R9, R25) -/

/-- What an address that no write has touched reads as. DESIGN CHOICE (log 4, unsafe): the spec gives memory no contents. -/
def unlistedByte : Byte := 0x00#8

/-- The canonical form: addresses strictly rising and inside the space, and no entry that says what an unlisted address reads. -/
abbrev Memory.wf (m : Memory) : Prop :=
  m.Pairwise (fun x y => x.1 < y.1) ∧ ∀ c ∈ m, c.1 < Config.addrSpace ∧ c.2 ≠ unlistedByte

/-- `Mem(a)` (R9, R26). -/
def memByte : Memory → Nat → Byte
  | [], _ => unlistedByte
  | c :: m, a => if a = c.1 then c.2 else memByte m a

/-- Put a byte before the cells of higher addresses; a byte that an unlisted address reads as is not listed. -/
def consCell (a : Nat) (b : Byte) (m : Memory) : Memory := if b = unlistedByte then m else (a, b) :: m

/-- The host's write of one byte (R68), keeping the canonical form. -/
def memSet : Memory → Nat → Byte → Memory
  | [], a, b => consCell a b []
  | c :: m, a, b =>
    if a < c.1 then consCell a b (c :: m)
    else if a = c.1 then consCell a b m
    else c :: memSet m a b

/-- The engine's reads of its memory port (R30 step 3): each address of the list once, in order, one byte each. It is the one
operation by which a command reads memory (R25), and it records the addresses (log 7). -/
def readBuffer (as : List Nat) (s : State) : List Byte × State :=
  (as.map (memByte s.mem), { s with reads := s.reads ++ as })

/-! ### Registers (R18, R20) -/

/-- `ACC <- v` (R18). -/
def writeAcc (v : Byte) (s : State) : State := { s with acc := v }

/-- `ADDR <- v` (R20). -/
def writeAddr (v : Addr) (s : State) : State := { s with addr := v }

/-- `LEN <- v` (R20). -/
def writeLen (v : Half) (s : State) : State := { s with len := v }

/-! ### Responses and exceptional outcomes -/

/-- `respond(status, data)` (R12): emit the command's one response. -/
def respond (st : Status) (d : Byte) (s : State) : State := { s with responses := s.responses ++ [⟨st, d⟩] }

/-- Taking an exceptional outcome, both of them (R57). Illegal: respond (ILLEGAL, 0x00) and change nothing (R58). Fault: FAULTED
is set, ACC becomes a free value (log 8), ADDR and LEN stay, and the response is (FAULT, 0x00) (R59). Nothing else is saved,
and there is nowhere to jump (R62). -/
def raise : Exceptional → State → State
  | .illegal, s => respond .illegal 0x00#8 s
  | .fault, s =>
    respond .fault 0x00#8
      (setFaulted (writeAcc (Config.freeByte s.freeIdx) { s with freeIdx := s.freeIdx + 1 }))

/-- What every command word gets in the faulted state (R60): the response (FAULT, 0x00), and no state changes. -/
def answerFaulted (s : State) : State := respond .fault 0x00#8 s

/-- A command's effect, which applies only while FAULTED = 0 (R40's Step, R60, R61). Log 11. -/
def unlessFaulted (s : State) (effect : State) : State := if s.faulted then answerFaulted s else effect

/-! ### Reset: the only way out of the faulted state (R63, R70) -/

/-- The reset input (R70, R24): ACC, ADDR and LEN zeroed, FAULTED cleared, POLY and TABLE as they are; no response. What is
outside the engine (memory, the host's moves, the records) is not touched (log 19). -/
def applyReset (s : State) : State :=
  clearFaulted (writeLen 0x0000#16 (writeAddr 0x00000000#32 (writeAcc 0x00#8 s)))

end Sys2Proof.Machine
end

