-- ==== Sys2Proof/Machine/Access.lean ====
section
/-! DEFINITION. The register access and control commands: NOP, SETADDRL, SETADDRH, SETLEN, RDACC, RDPOLY, RDTBL
(41_register_access.md R48 to R54). There are no control-transfer, system or privileged commands (R55, R56). -/

namespace Sys2Proof.Machine

/-- NOP (R48): `respond(OK, 0x00)`. -/
def execNop (s : State) : Outcome := .next (unlessFaulted s (respond .ok 0x00#8 s))

/-- SETADDRL (R49): `ADDR <- {ADDR[31:16], IMM16}; respond(OK, 0x00)`. -/
def execSetaddrl (imm16 : Half) (s : State) : Outcome :=
  .next (unlessFaulted s (respond .ok 0x00#8 (writeAddr (withLowHalf s.addr imm16) s)))

/-- SETADDRH (R50): `ADDR <- {IMM16, ADDR[15:0]}; respond(OK, 0x00)`. -/
def execSetaddrh (imm16 : Half) (s : State) : Outcome :=
  .next (unlessFaulted s (respond .ok 0x00#8 (writeAddr (withHighHalf s.addr imm16) s)))

/-- SETLEN (R51): `LEN <- IMM16; respond(OK, 0x00)`. -/
def execSetlen (imm16 : Half) (s : State) : Outcome :=
  .next (unlessFaulted s (respond .ok 0x00#8 (writeLen imm16 s)))

/-- RDACC (R52): `respond(OK, ACC)`. -/
def execRdacc (s : State) : Outcome := .next (unlessFaulted s (respond .ok s.acc s))

/-- RDPOLY (R53): `respond(OK, POLY)`. -/
def execRdpoly (s : State) : Outcome := .next (unlessFaulted s (respond .ok s.poly s))

/-- RDTBL (R54): `respond(OK, TABLE[IMM8])`. -/
def execRdtbl (imm8 : Byte) (s : State) : Outcome := .next (unlessFaulted s (respond .ok (tableAt s imm8) s))

end Sys2Proof.Machine
end

