-- ==== Sys2Proof/Machine/Compute.lean ====
section
/-! DEFINITION. The CRC computation commands: INIT, UPDATE, CALC (40_crc_compute.md R44, R45, R46). -/

namespace Sys2Proof.Machine

/-- INIT (R44): `ACC <- 0x00; respond(OK, 0x00)`. -/
def execInit (s : State) : Outcome := .next (unlessFaulted s (respond .ok 0x00#8 (writeAcc 0x00#8 s)))

/-- UPDATE's effect (R45): `v <- Fold(ACC, IMM8); ACC <- v; respond(OK, v)`. -/
def updateEffect (imm8 : Byte) (s : State) : State :=
  let v := crcFold s.bitOrder s.poly s.acc imm8
  respond .ok v (writeAcc v s)

/-- UPDATE (R45). -/
def execUpdate (imm8 : Byte) (s : State) : Outcome := .next (unlessFaulted s (updateEffect imm8 s))

/-- The reading half of CALC (R46's last loop): read the buffer in order, fold it from 0x00, keep and return the result. -/
def calcRead (s : State) : State :=
  let r := readBuffer (bufferAddrs s.addr s.len) s
  let v := calculate s.bitOrder s.poly r.1
  respond .ok v (writeAcc v r.2)

/-- CALC's effect (R46): LEN = 0 answers 0x00 and examines nothing; then the top-of-space check (R31), then the check of every
address (R26), and only then the reads (R30). -/
def calcEffect (s : State) : State :=
  if s.len = 0x0000#16 then respond .ok 0x00#8 (writeAcc 0x00#8 s)
  else if bufferFits s.addr s.len = false then raise .fault s
  else if bufferReadable s.readable s.addr s.len = false then raise .fault s
  else calcRead s

/-- CALC (R46). -/
def execCalc (s : State) : Outcome := .next (unlessFaulted s (calcEffect s))

end Sys2Proof.Machine
end

