-- ==== Sys2Proof/Machine/Dispatch.lean ====
section
/-! DEFINITION. One arm per command: the meaning of a legal command word. -/

namespace Sys2Proof.Machine

def exec (i : Instr) (s : State) : Host.Outcome State Fault Refusal :=
  match i with
  | .nop => Sys2Proof.Machine.execNop s
  | .init => Sys2Proof.Machine.execInit s
  | .update imm8 => Sys2Proof.Machine.execUpdate imm8 s
  | .calcCrc => Sys2Proof.Machine.execCalc s
  | .rdacc => Sys2Proof.Machine.execRdacc s
  | .rdpoly => Sys2Proof.Machine.execRdpoly s
  | .rdtbl imm8 => Sys2Proof.Machine.execRdtbl imm8 s
  | .setaddrl imm16 => Sys2Proof.Machine.execSetaddrl imm16 s
  | .setaddrh imm16 => Sys2Proof.Machine.execSetaddrh imm16 s
  | .setlen imm16 => Sys2Proof.Machine.execSetlen imm16 s

end Sys2Proof.Machine
end

