-- ==== Sys2Proof/Machine/Port.lean ====
section
/-! DEFINITION. The engine's ports: how a command word is taken (30_encoding.md R40's Step; 60_exceptions.md R61), and the other
moves of the host (R68). -/

namespace Sys2Proof.Machine

/-- R40's Step, line by line, which is R61's priority: the faulted state first, then legality, then the matching row's rule. -/
def commandStep (w : Word) (s : State) : Outcome :=
  if s.faulted then .next (answerFaulted s)
  else
    match decode w with
    | .error _ => .next (raise .illegal s)
    | .ok i => exec i s

/-- The host writes a byte of its memory, between commands (R68); the engine takes no part. The spec lets the host write any
byte, whether or not the engine may read it (log 21). -/
def hostWrite (a : Addr) (b : Byte) (s : State) : State := { s with mem := memSet s.mem a.toNat b }

/-- One move of the host (R68), already taken off the list of moves. -/
def hostMove (m : HostMove) (s : State) : Outcome :=
  match m with
  | .command w => commandStep w s
  | .write a b => .next (hostWrite a b s)
  | .reset => .next (applyReset s)

/-- Take the host's next move; with none, the engine "is idle and keeps all state" (R66). Moves are taken in the order they are
made, one at a time (R21). -/
def takeMove (s : State) : Outcome :=
  match s.inputs with
  | [] => .next s
  | m :: rest => hostMove m { s with inputs := rest }

/-- Make a command word the host's next move. -/
def presentCommand (w : Word) (s : State) : State := { s with inputs := .command w :: s.inputs }

end Sys2Proof.Machine
end

