-- ==== Sys2Proof/Machine/Step.lean ====
section
/-! DEFINITION. One step of the machine: one move of the host, with the engine's whole answer to it (10_state.md R21, R23). -/

namespace Sys2Proof.Machine

/-- One step. The engine does not fetch: the next command is the one the host presents (R21, R25). Log 5. -/
def step (s : State) : Host.Outcome State Fault Refusal := takeMove s

/-- The state in which the host presents the word next, so that the next step takes it. Bits above `nbits` are zero (log 9). -/
def State.withFetchWord (s : State) (nbits w : Nat) : State :=
  presentCommand (BitVec.ofNat 32 (w % 2 ^ nbits)) s

end Sys2Proof.Machine
end

