-- ==== Sys2Proof/Machine/Asm.lean ====
section
/-! DEFINITION. The spec's assembler (30_encoding.md R41): what a line encodes to, the pseudo-instructions, and the text of a
line. It is host software (92_eei_decisions.md D22): nothing of the engine depends on it. -/

namespace Sys2Proof.Machine

/-! ### Lines -/

/-- `setaddr A` is `setaddrl A[15:0] ; setaddrh A[31:16]` (R41). -/
def setaddrWords (a : Nat) : List Word :=
  [ encode (.setaddrl (BitVec.ofNat 16 a)), encode (.setaddrh (BitVec.ofNat 16 (a / 65536))) ]

/-- `crc A, L` is `setaddr A ; setlen L ; calc` (R41). -/
def crcWords (a l : Nat) : List Word :=
  setaddrWords a ++ [ encode (.setlen (BitVec.ofNat 16 l)), encode .calcCrc ]

/-- The words of a line whose operands fit (R41). `pktcrc D, L` is `crc D, L`. -/
def asmWords : AsmLine → List Word
  | .nop => [encode .nop]
  | .init => [encode .init]
  | .calcCrc => [encode .calcCrc]
  | .rdacc => [encode .rdacc]
  | .rdpoly => [encode .rdpoly]
  | .update n => [encode (.update (BitVec.ofNat 8 n))]
  | .rdtbl n => [encode (.rdtbl (BitVec.ofNat 8 n))]
  | .setaddrl n => [encode (.setaddrl (BitVec.ofNat 16 n))]
  | .setaddrh n => [encode (.setaddrh (BitVec.ofNat 16 n))]
  | .setlen n => [encode (.setlen (BitVec.ofNat 16 n))]
  | .word w => [BitVec.ofNat 32 w]
  | .setaddr a => setaddrWords a
  | .crc a l => crcWords a l
  | .pktcrc d l => crcWords d l

/-- Assemble a line, or refuse it (R41). -/
def assemble (l : AsmLine) : Option (List Word) := if l.wf then some (asmWords l) else none

/-- The host's moves that present the words in order. -/
def commands (ws : List Word) : List HostMove := ws.map .command

/-! ### Text (R41; the details it leaves open are log 17)

A line is a list of characters. -/

/-- The line up to its comment: "`;` starts a comment". -/
def stripComment (cs : List Char) : List Char := cs.takeWhile fun c => c ≠ ';'

/-- Split at blanks; a comma is a token of its own. `cur` is the token being read, last character first. -/
def tokens : List Char → List Char → List (List Char)
  | [], cur => if cur.isEmpty then [] else [cur.reverse]
  | c :: cs, cur =>
    let done := if cur.isEmpty then [] else [cur.reverse]
    if c = ' ' ∨ c = '\t' then done ++ tokens cs []
    else if c = ',' then done ++ [','] :: tokens cs []
    else tokens cs (c :: cur)

/-- The value of a digit in the given base. -/
def digit (base : Nat) (c : Char) : Option Nat :=
  let n := c.toNat
  let v :=
    if 48 ≤ n ∧ n ≤ 57 then n - 48
    else if 97 ≤ n ∧ n ≤ 102 then n - 87
    else if 65 ≤ n ∧ n ≤ 70 then n - 55
    else base
  if v < base then some v else none

/-- Digits in the given base, most significant first. -/
def digits (base : Nat) : List Char → Nat → Option Nat
  | [], acc => some acc
  | c :: cs, acc =>
    match digit base c with
    | some d => digits base cs (acc * base + d)
    | none => none

/-- "Operands are numerals (`0x..` hexadecimal or decimal)". -/
def numeral : List Char → Option Nat
  | '0' :: 'x' :: c :: cs => digits 16 (c :: cs) 0
  | c :: cs => digits 10 (c :: cs) 0
  | [] => none

/-- The mnemonics that take no operand. -/
def mnemonic0 : List Char → Option AsmLine
  | ['n', 'o', 'p'] => some .nop
  | ['i', 'n', 'i', 't'] => some .init
  | ['c', 'a', 'l', 'c'] => some .calcCrc
  | ['r', 'd', 'a', 'c', 'c'] => some .rdacc
  | ['r', 'd', 'p', 'o', 'l', 'y'] => some .rdpoly
  | _ => none

/-- The mnemonics that take one operand. -/
def mnemonic1 (n : Nat) : List Char → Option AsmLine
  | ['u', 'p', 'd', 'a', 't', 'e'] => some (.update n)
  | ['r', 'd', 't', 'b', 'l'] => some (.rdtbl n)
  | ['s', 'e', 't', 'a', 'd', 'd', 'r', 'l'] => some (.setaddrl n)
  | ['s', 'e', 't', 'a', 'd', 'd', 'r', 'h'] => some (.setaddrh n)
  | ['s', 'e', 't', 'l', 'e', 'n'] => some (.setlen n)
  | ['.', 'w', 'o', 'r', 'd'] => some (.word n)
  | ['s', 'e', 't', 'a', 'd', 'd', 'r'] => some (.setaddr n)
  | _ => none

/-- The mnemonics that take two operands. -/
def mnemonic2 (a l : Nat) : List Char → Option AsmLine
  | ['c', 'r', 'c'] => some (.crc a l)
  | ['p', 'k', 't', 'c', 'r', 'c'] => some (.pktcrc a l)
  | _ => none

/-- The line a list of tokens spells; `some none` is an empty line. -/
def parseTokens : List (List Char) → Option (Option AsmLine)
  | [] => some none
  | [m] => (mnemonic0 m).map some
  | [m, x] =>
    match numeral x with
    | some n => (mnemonic1 n m).map some
    | none => none
  | [m, x, [','], y] =>
    match numeral x, numeral y with
    | some a, some l => (mnemonic2 a l m).map some
    | _, _ => none
  | _ => none

/-- The words of one line of text, or a refusal of the line. An empty line or a comment alone is no command. -/
def assembleText (cs : List Char) : Option (List Word) :=
  match parseTokens (tokens (stripComment cs) []) with
  | some (some l) => assemble l
  | some none => some []
  | none => none

/-- A program, "one command per line" (R41): the words of its lines in order. One refused line refuses the whole program: DESIGN
CHOICE, since R41 says only that the assembler refuses the line (log 17). -/
def assembleProgram : List (List Char) → Option (List Word)
  | [] => some []
  | l :: ls =>
    match assembleText l, assembleProgram ls with
    | some ws, some vs => some (ws ++ vs)
    | _, _ => none

end Sys2Proof.Machine
end

