-- ==== Sys2Proof/Safety.lean ====
section
/-! DEFINITION. The terms claims are made in: runs, the invariant, the hardwired parameters, and the two independent readings of
the table that the spec's glossary and R47 give (bit-serial update, remainder of a polynomial division). -/

namespace Sys2Proof.Safety

open Sys2Proof.Machine

/-- `k` steps of the machine, by the host's own `Host.Core.run`. -/
def runFor (k : Nat) (s : State) : Outcome := Host.Core.run Sys2Proof.core k s

/-- What every step keeps, whatever the host does.

- the memory is in its canonical form (log 4);
- a faulted engine's last response is (FAULT, 0x00) (60_exceptions.md R59, R60; 10_state.md R19);
- a response that is not OK carries DATA 0x00 (30_encoding.md R38);
- the engine has only ever read addresses that are readable and inside the space (00_scope.md R12, 20_memory.md R25, R26). -/
structure Inv (s : State) : Prop where
  mem_wf : Memory.wf s.mem
  faulted_shows : s.faulted = true → s.responses.getLast? = some ⟨.fault, 0x00#8⟩
  data_zero : ∀ r ∈ s.responses, r.status ≠ .ok → r.data = 0x00#8
  reads_admitted : ∀ a ∈ s.reads, a < Config.addrSpace ∧ readableIn s.readable a = true

/-- The state is one of THIS engine: POLY is hardwired to POLY_VALUE (10_state.md R17), and the other two arguments are this
engine's and this platform's. -/
structure Hardwired (s : State) : Prop where
  poly : s.poly = Config.polyValue
  bitOrder : s.bitOrder = Config.bitOrder
  readable : s.readable = Config.readable

/-- The move presents a command word; the host's other moves get no response (60_exceptions.md R68, 70_reset_and_hazards.md R70). -/
def isCommand : HostMove → Bool
  | .command _ => true
  | .write _ _ => false
  | .reset => false

/-- CALC completes from these registers (R46): the buffer is empty, or it fits and every byte of it is readable. -/
def bufferOk (s : State) : Prop :=
  s.len = 0x0000#16 ∨
    (s.addr.toNat + s.len.toNat ≤ 4294967296 ∧
      ∀ k < s.len.toNat, readableIn s.readable (s.addr.toNat + k) = true)

/-- The word, presented to an engine that is not faulted, is answered (ILLEGAL, 0x00) and nothing else changes (60_exceptions.md
R58). -/
def answeredIllegal (w : Word) : Prop :=
  ∀ (s : State) (rest : List HostMove), s.faulted = false → s.inputs = .command w :: rest →
    step s = .next { s with inputs := rest, responses := s.responses ++ [⟨.illegal, 0x00#8⟩] }

/-- The bytes of the buffer, in ascending order: `Mem(a), Mem(a+1), ..., Mem(a+n-1)` (R46). -/
def bufferBytes (s : State) : List Byte :=
  (List.range s.len.toNat).map fun k => memByte s.mem (s.addr.toNat + k)

/-- The byte an address holds after the host's moves, if it held `v` before them: the last write to it wins, and no command and
no reset changes memory (20_memory.md R25; 60_exceptions.md R68). -/
def byteAfter : List HostMove → Nat → Byte → Byte
  | [], _, v => v
  | .write a b :: ms, k, v => byteAfter ms k (if k = a.toNat then b else v)
  | .command _ :: ms, k, v => byteAfter ms k v
  | .reset :: ms, k, v => byteAfter ms k v

/-- One bit of a serial CRC register: compare the bit shifted out with the next data bit, and XOR the polynomial in when they
differ. Independent of TABLE. -/
def serialBit (o : BitOrder) (p c : Byte) (d : Bool) : Byte :=
  match o with
  | .msbFirst => if (c.getLsbD 7 != d) = true then (c <<< 1) ^^^ p else c <<< 1
  | .lsbFirst => if (c.getLsbD 0 != d) = true then (c >>> 1) ^^^ p else c >>> 1

/-- The bits of a byte in the order the direction takes them. -/
def serialBits (o : BitOrder) (b : Byte) : List Bool :=
  match o with
  | .msbFirst => (List.range 8).map fun k => b.getLsbD (7 - k)
  | .lsbFirst => (List.range 8).map fun k => b.getLsbD k

/-- The register after all bits of the bytes have been shifted through it, one at a time. -/
def serialCrc (o : BitOrder) (p : Byte) (c : Byte) (ds : List Byte) : Byte :=
  (ds.flatMap (serialBits o)).foldl (serialBit o p) c

/-- The polynomial over GF(2) that a byte stands for: bit k is the coefficient of x^k when the most significant bit comes first,
and of x^(7-k) in the reflected form (10_state.md R15). -/
noncomputable def polyOf (o : BitOrder) (b : Byte) : Polynomial (ZMod 2) :=
  ∑ k ∈ Finset.range 8,
    if b.getLsbD (match o with | .msbFirst => k | .lsbFirst => 7 - k) = true then Polynomial.X ^ k else 0

/-- The generator: x^8 and the polynomial register's value. -/
noncomputable def generator (o : BitOrder) (p : Byte) : Polynomial (ZMod 2) := Polynomial.X ^ 8 + polyOf o p

/-- The message as a polynomial over GF(2), first byte highest. -/
noncomputable def messagePoly (o : BitOrder) (ds : List Byte) : Polynomial (ZMod 2) :=
  ds.foldl (fun m b => m * Polynomial.X ^ 8 + polyOf o b) 0

end Sys2Proof.Safety
end

