-- ==== Sys2Proof/Certificates/Slice0/Obligations.lean ====
section
/-! DEFINITION. The statements for the provers. Each docstring names the rule of spec/ it formalises. `s` is any state: any
register values, any POLY, any BIT_ORDER, any readable ranges, any memory, any moves to come. -/

open Sys2Proof Sys2Proof.Machine Sys2Proof.Safety

/-! ### Encoding -/

/-- All 26 rows of 95_test_vectors.md L2.5: the twelve legal words decode as the table says, and each of the fourteen illegal
words matches no row of the opcode map and decodes to nothing. -/
def Obligations.WordsOfTheVectorTableDecode : Prop :=
  (decode 0x00000000#32 = .ok .nop ∧
    decode 0x01000000#32 = .ok .init ∧
    decode 0x02000031#32 = .ok (.update 0x31#8) ∧
    decode 0x020000FF#32 = .ok (.update 0xFF#8) ∧
    decode 0x03000000#32 = .ok .calcCrc ∧
    decode 0x04000000#32 = .ok .rdacc ∧
    decode 0x05000000#32 = .ok .rdpoly ∧
    decode 0x06000080#32 = .ok (.rdtbl 0x80#8) ∧
    decode 0x0700BEEF#32 = .ok (.setaddrl 0xBEEF#16) ∧
    decode 0x0800DEAD#32 = .ok (.setaddrh 0xDEAD#16) ∧
    decode 0x09000009#32 = .ok (.setlen 0x0009#16) ∧
    decode 0x0900FFFF#32 = .ok (.setlen 0xFFFF#16)) ∧
  ∀ w ∈ [0x0A000000#32, 0xFF000000#32, 0x80000000#32, 0x00010000#32, 0x00000001#32, 0x01000001#32, 0x03800000#32,
      0x03000100#32, 0x02000100#32, 0x0201FF00#32, 0x06008000#32, 0x07010000#32, 0x09FF0009#32, 0xFFFFFFFF#32],
    legal w = false ∧ (decode w).toOption = none

/-- Decoding the word of any instruction gives the instruction back, with every operand value, and the word is legal
(30_encoding.md R36, R37, R39). -/
def Obligations.DecodeOfEncodeIsTheInstruction : Prop :=
  ∀ i : Instr, decode (encode i) = .ok i ∧ legal (encode i) = true

/-- Each instruction has one word: a word that decodes is the encoding of what it decodes to (R39). -/
def Obligations.EncodeOfDecodeIsTheWord : Prop :=
  ∀ (w : Word) (i : Instr), decode w = .ok i → encode i = w

/-- R39, the opcode map: the ten rows; "A word spells an instruction exactly when (cmd & mask) = match for one row"; no word
matches two rows; OPC 0x0A to 0xFF is reserved; and no command changes POLY or a table entry. -/
def Obligations.OpcodeMapRowsNeverOverlap : Prop :=
  opRows.map (fun r => (r.mnemonic, r.format, r.matchWord, r.mask)) =
    [ ("NOP", .n, 0x00000000#32, 0xFFFFFFFF#32), ("INIT", .n, 0x01000000#32, 0xFFFFFFFF#32),
      ("UPDATE", .b, 0x02000000#32, 0xFFFFFF00#32), ("CALC", .n, 0x03000000#32, 0xFFFFFFFF#32),
      ("RDACC", .n, 0x04000000#32, 0xFFFFFFFF#32), ("RDPOLY", .n, 0x05000000#32, 0xFFFFFFFF#32),
      ("RDTBL", .b, 0x06000000#32, 0xFFFFFF00#32), ("SETADDRL", .h, 0x07000000#32, 0xFFFF0000#32),
      ("SETADDRH", .h, 0x08000000#32, 0xFFFF0000#32), ("SETLEN", .h, 0x09000000#32, 0xFFFF0000#32) ] ∧
  (∀ w : Word, (∃ i, decode w = .ok i) ↔ ∃ r ∈ opRows, w &&& r.mask = r.matchWord) ∧
  (∀ w : Word, ∀ r₁ ∈ opRows, ∀ r₂ ∈ opRows,
    w &&& r₁.mask = r₁.matchWord → w &&& r₂.mask = r₂.matchWord → r₁ = r₂) ∧
  (∀ w : Word, ∀ i, decode w = .ok i → (w.extractLsb' 24 8).toNat < 0x0A) ∧
  (∀ (i : Instr) (s t : State), exec i s = .next t → t.poly = s.poly ∧ ∀ k : Byte, tableAt t k = tableAt s k)

/-- R40: `Legal` by rows is the negation of the list of illegal words; every legal word decodes and no illegal word does; and a
command step is R40's Step: a faulted engine answers FAULT, else an illegal word gets ILLEGAL, else the matching row's
instruction is executed. -/
def Obligations.EveryWordIsLegalOrIllegal : Prop :=
  (∀ w : Word, legal w = false ↔
    0x0A ≤ (w.extractLsb' 24 8).toNat ∨ w.extractLsb' 16 8 ≠ 0x00#8 ∨
      ((w.extractLsb' 24 8).toNat ∈ [0x00, 0x01, 0x03, 0x04, 0x05] ∧ w.extractLsb' 0 16 ≠ 0x0000#16) ∨
      ((w.extractLsb' 24 8).toNat ∈ [0x02, 0x06] ∧ w.extractLsb' 8 8 ≠ 0x00#8)) ∧
  (∀ w : Word, legal w = true ↔ ∃ i, decode w = .ok i) ∧
  (∀ (s : State) (w : Word) (rest : List HostMove), s.inputs = .command w :: rest →
    (s.faulted = true →
      step s = .next { s with inputs := rest, responses := s.responses ++ [⟨.fault, 0x00#8⟩] }) ∧
    (s.faulted = false → legal w = false →
      step s = .next { s with inputs := rest, responses := s.responses ++ [⟨.illegal, 0x00#8⟩] }) ∧
    (s.faulted = false → legal w = true →
      ∃ i, decode w = .ok i ∧ encode i = w ∧ step s = exec i { s with inputs := rest }))

/-- R37: IMM8 is cmd[7:0] and IMM16 is cmd[15:0], unchanged; a SETADDRL and a SETADDRH together make `ADDR` of their two
halves, in either order. -/
def Obligations.OperandsAreTheWordsLowBits : Prop :=
  (∀ (w : Word) (b : Byte), decode w = .ok (.update b) ∨ decode w = .ok (.rdtbl b) → b = w.extractLsb' 0 8) ∧
  (∀ (w : Word) (h : Half),
    decode w = .ok (.setaddrl h) ∨ decode w = .ok (.setaddrh h) ∨ decode w = .ok (.setlen h) →
      h = w.extractLsb' 0 16) ∧
  (∀ (s : State) (lo hi : Half), s.faulted = false →
    ∃ t u, exec (.setaddrl lo) s = .next t ∧ exec (.setaddrh hi) t = .next u ∧ u.addr = hi ++ lo) ∧
  (∀ (s : State) (lo hi : Half), s.faulted = false →
    ∃ t u, exec (.setaddrh hi) s = .next t ∧ exec (.setaddrl lo) t = .next u ∧ u.addr = hi ++ lo)

/-! ### The ports -/

/-- When the host's next move presents a word that decodes, the step is `exec` of that instruction in the state with the move
taken off (10_state.md R21, 30_encoding.md R40). On a faulted engine, where R40's Step returns before it executes a row's rule, this
rests on the model's choice that `exec` checks FAULTED itself (log 11). -/
def Obligations.StepRunsTheDecodedInstruction : Prop :=
  ∀ (s : State) (w : Word) (rest : List HostMove) (i : Instr),
    s.inputs = .command w :: rest → decode w = .ok i → step s = exec i { s with inputs := rest }

/-- Every step ends in a next state; a command gets exactly one response and the host's other moves get none; and when all the
host's moves are taken, each command among them has been answered (70_reset_and_hazards.md R75: "every issued command eventually
gets its response"). That a command takes one step is the model's (log 14). -/
def Obligations.EveryCommandIsAnswered : Prop :=
  (∀ s : State, ∃ t, step s = .next t ∧ t.inputs = s.inputs.tail ∧
    ∃ rs, t.responses = s.responses ++ rs ∧
      rs.length = (match s.inputs with | .command _ :: _ => 1 | _ => 0)) ∧
  (∀ s : State, ∃ t, runFor s.inputs.length s = .next t ∧ t.inputs = [] ∧
    t.responses.length = s.responses.length + s.inputs.countP isCommand)

/-- R38: each command gets exactly one response, and its word has DATA in bits 7:0, the STATUS code in bits 9:8, never 0b11, and
zeros in bits 15:10; DATA is 0x00 when the command does not complete or has no result. -/
def Obligations.ResponseWordHasItsFields : Prop :=
  ∀ (s : State) (w : Word) (rest : List HostMove), s.inputs = .command w :: rest →
    ∃ t r, step s = .next t ∧ t.responses = s.responses ++ [r] ∧
      r.word.extractLsb' 0 8 = r.data ∧
      r.word.extractLsb' 8 2 = (match r.status with | .ok => 0b00#2 | .illegal => 0b01#2 | .fault => 0b10#2) ∧
      r.word.extractLsb' 8 2 ≠ 0b11#2 ∧
      r.word.extractLsb' 10 6 = 0#6 ∧
      (r.status ≠ .ok → r.data = 0x00#8) ∧
      (w.extractLsb' 24 8 ∈ [0x00#8, 0x01#8, 0x07#8, 0x08#8, 0x09#8] → r.data = 0x00#8)

/-- With no move of the host to take, the engine is idle and keeps all state (60_exceptions.md R66). That a step of the model may
find no move is the model's (log 5). -/
def Obligations.IdleEngineKeepsAllState : Prop :=
  ∀ s : State, s.inputs = [] → step s = .next s

/-- A host's write changes the byte it names and no other, and nothing of the engine (60_exceptions.md R68). -/
def Obligations.HostWriteChangesOneByte : Prop :=
  ∀ (s : State) (a : Addr) (b : Byte) (rest : List HostMove), Memory.wf s.mem → s.inputs = .write a b :: rest →
    ∃ m, step s = .next { s with inputs := rest, mem := m } ∧ Memory.wf m ∧ memByte m a.toNat = b ∧
      ∀ k : Nat, k ≠ a.toNat → memByte m k = memByte s.mem k

/-- R58: an illegal word on an engine that is not faulted is answered (ILLEGAL, 0x00), changes nothing else, reads no memory, and
the next command runs normally. -/
def Obligations.IllegalWordChangesNothing : Prop :=
  (∀ (s : State) (w : Word) (rest : List HostMove),
    s.faulted = false → s.inputs = .command w :: rest → legal w = false →
      step s = .next { s with inputs := rest, responses := s.responses ++ [⟨.illegal, 0x00#8⟩] }) ∧
  (∀ (s : State) (w w' : Word) (rest : List HostMove) (i : Instr),
    s.faulted = false → s.inputs = .command w :: .command w' :: rest → legal w = false → decode w' = .ok i →
      runFor 2 s = exec i { s with inputs := rest, responses := s.responses ++ [⟨.illegal, 0x00#8⟩] })

/-- R60: in the faulted state every command word, legal or illegal, is answered (FAULT, 0x00) and changes no state and reads no
memory (whole-state equality), every instruction does so too (`exec`'s own check of FAULTED: log 11), and only reset leaves the
state. -/
def Obligations.FaultedEngineAnswersFault : Prop :=
  (∀ (s : State) (w : Word) (rest : List HostMove), s.faulted = true → s.inputs = .command w :: rest →
    step s = .next { s with inputs := rest, responses := s.responses ++ [⟨.fault, 0x00#8⟩] }) ∧
  (∀ (s : State) (i : Instr), s.faulted = true →
    exec i s = .next { s with responses := s.responses ++ [⟨.fault, 0x00#8⟩] }) ∧
  (∀ s t : State, s.faulted = true → step s = .next t → t.faulted = false → ∃ rest, s.inputs = .reset :: rest)

/-- However long the host goes on without reset, a faulted engine stays faulted, keeps its registers, reads no memory and answers
every command (FAULT, 0x00) (60_exceptions.md R60, R63). -/
def Obligations.FaultedStateLastsUntilReset : Prop :=
  ∀ (k : Nat) (s : State), s.faulted = true → (∀ m ∈ s.inputs.take k, m ≠ .reset) →
    ∃ t, runFor k s = .next t ∧ t.faulted = true ∧ t.acc = s.acc ∧ t.addr = s.addr ∧ t.len = s.len ∧
      t.poly = s.poly ∧ t.reads = s.reads ∧ t.freeIdx = s.freeIdx ∧
      t.responses = s.responses ++ List.replicate ((s.inputs.take k).countP isCommand) ⟨.fault, 0x00#8⟩

/-- FAULTED is set by exactly one thing: a CALC with LEN > 0 whose buffer crosses the top or holds an address that is not
readable (10_state.md R19, 60_exceptions.md R57). -/
def Obligations.OnlyAFailingCalcSetsFaulted : Prop :=
  ∀ s t : State, s.faulted = false → step s = .next t →
    (t.faulted = true ↔
      ∃ rest, s.inputs = .command 0x03000000#32 :: rest ∧ s.len ≠ 0x0000#16 ∧
        (4294967296 < s.addr.toNat + s.len.toNat ∨
          ∃ k < s.len.toNat, readableIn s.readable (s.addr.toNat + k) = false))

/-- R61, the priority: FAULTED first, whatever the word; then an illegal word; then a legal CALC with LEN > 0, whose two checks
give the same FAULT response; else the command completes with OK. -/
def Obligations.ConditionsHaveTheirPriority : Prop :=
  ∀ (s : State) (w : Word) (rest : List HostMove), s.inputs = .command w :: rest →
    ∃ t r, step s = .next t ∧ t.responses = s.responses ++ [r] ∧
      (s.faulted = true → r = ⟨.fault, 0x00#8⟩) ∧
      (s.faulted = false → legal w = false → r = ⟨.illegal, 0x00#8⟩) ∧
      (s.faulted = false → w = 0x03000000#32 → ¬ bufferOk s → r = ⟨.fault, 0x00#8⟩) ∧
      (s.faulted = false → legal w = true → (w = 0x03000000#32 → bufferOk s) → r.status = .ok)

/-- What a command after a command sees is the whole effect of the first: two commands in a row are the second's effect on the
state the first leaves (70_reset_and_hazards.md R73; 30_encoding.md R40). Where the engine is faulted before either of them, R40's
Step answers FAULT and returns before it executes a row's rule (60_exceptions.md R60); that the step is `exec` of the instruction
there too is the model's: `exec` checks FAULTED itself (log 11). -/
def Obligations.NextCommandSeesAllEffects : Prop :=
  ∀ (s t : State) (w w' : Word) (rest : List HostMove) (i j : Instr),
    s.inputs = .command w :: .command w' :: rest → decode w = .ok i → decode w' = .ok j →
      exec i { s with inputs := rest } = .next t → runFor 2 s = exec j t

/-- R73's two examples: an UPDATE right after an UPDATE folds into the new ACC, and a CALC right after a
SETLEN uses the new LEN. -/
def Obligations.BackToBackCommandsHaveNoHazard : Prop :=
  (∀ (s : State) (b c : Byte) (rest : List HostMove), s.faulted = false →
    s.inputs = .command (encode (.update b)) :: .command (encode (.update c)) :: rest →
      ∃ t, runFor 2 s = .next t ∧
        t.acc = crcFold s.bitOrder s.poly (crcFold s.bitOrder s.poly s.acc b) c) ∧
  (∀ (s : State) (n : Half) (rest : List HostMove), s.faulted = false →
    s.inputs = .command (encode (.setlen n)) :: .command 0x03000000#32 :: rest →
      bufferOk { s with len := n } →
        ∃ t, runFor 2 s = .next t ∧ t.len = n ∧ t.faulted = false ∧
          t.acc = calculate s.bitOrder s.poly (bufferBytes { s with len := n }))

/-! ### Reset and invariants -/

/-- R24: after reset ACC, ADDR and LEN are zero and FAULTED is 0, POLY is POLY_VALUE and every table entry is R16's, both in the
state the machine starts in and after the host asserts reset. -/
def Obligations.ResetGivesTheResetValues : Prop :=
  (State.reset.acc = 0x00#8 ∧ State.reset.poly = Config.polyValue ∧ State.reset.addr = 0x00000000#32 ∧
    State.reset.len = 0x0000#16 ∧ State.reset.faulted = false ∧
    ∀ i : Byte, tableAt State.reset i = tableGen Config.bitOrder Config.polyValue i) ∧
  (∀ (s : State) (rest : List HostMove), Hardwired s → s.inputs = .reset :: rest →
    ∃ t, step s = .next t ∧ t.acc = 0x00#8 ∧ t.poly = Config.polyValue ∧ t.addr = 0x00000000#32 ∧
      t.len = 0x0000#16 ∧ t.faulted = false ∧
      ∀ i : Byte, tableAt t i = tableGen Config.bitOrder Config.polyValue i)

/-- The reset move produces no response and touches nothing outside the engine; a CALC right after it answers 0x00
(70_reset_and_hazards.md R70, R72). That memory and the records are not touched is the model's reading (log 19). -/
def Obligations.CalcRightAfterResetAnswersZero : Prop :=
  (∀ (s : State) (rest : List HostMove), s.inputs = .reset :: rest →
    step s = .next { s with
      acc := 0x00#8, addr := 0x00000000#32, len := 0x0000#16, faulted := false, inputs := rest }) ∧
  (∀ (s : State) (rest : List HostMove), s.inputs = .reset :: .command 0x03000000#32 :: rest →
    runFor 2 s = .next { s with
      acc := 0x00#8, addr := 0x00000000#32, len := 0x0000#16, faulted := false, inputs := rest,
      responses := s.responses ++ [⟨.ok, 0x00#8⟩] })

/-- The state after reset meets the invariant and has the hardwired values: FAULTED = 0 and POLY = POLY_VALUE (10_state.md R24, R17).
That its memory is the empty list, its BIT_ORDER Config.bitOrder and its Readable Config.readable, and that it has no responses
and no reads yet, is the model's choice (logs 2, 3, 4, 6, 7). -/
def Obligations.ResetStateMeetsTheInvariant : Prop :=
  Inv State.reset ∧ Hardwired State.reset

/-- Every step keeps the invariant, from every state that meets it: canonical memory (log 4), a faulted engine's last response is
FAULT, no data beside a status other than OK, and only readable addresses were ever read. That the reset move leaves memory and
the records is the model's reading (log 19). -/
def Obligations.EveryStepKeepsTheInvariant : Prop :=
  ∀ s t : State, Inv s → step s = .next t → Inv t

/-- No move of the host changes POLY, BIT_ORDER, Readable or a table entry (10_state.md R16, R17; log 1 to 3). -/
def Obligations.HardwiredStateNeverChanges : Prop :=
  ∀ s t : State, step s = .next t →
    t.poly = s.poly ∧ t.bitOrder = s.bitOrder ∧ t.readable = s.readable ∧
      (∀ i : Byte, tableAt t i = tableAt s i) ∧ (Hardwired s → Hardwired t)

/-- Who may write what, over every step (10_state.md R13's column "written by"; 20_memory.md R25): ACC only INIT, UPDATE, CALC
and reset; ADDR only SETADDRL, SETADDRH and reset; LEN only SETLEN and reset; FAULTED only CALC and reset; memory only the host;
and only CALC reads memory. That reset leaves memory and the record of reads is the model's reading (log 19). -/
def Obligations.OnlyTheNamedCommandsWrite : Prop :=
  ∀ s t : State, step s = .next t →
    (t.acc ≠ s.acc → ∃ m rest, s.inputs = m :: rest ∧
      (m = .reset ∨ ∃ w, m = .command w ∧
        (decode w = .ok .init ∨ (∃ b, decode w = .ok (.update b)) ∨ decode w = .ok .calcCrc))) ∧
    (t.addr ≠ s.addr → ∃ m rest, s.inputs = m :: rest ∧
      (m = .reset ∨ ∃ w h, m = .command w ∧ (decode w = .ok (.setaddrl h) ∨ decode w = .ok (.setaddrh h)))) ∧
    (t.len ≠ s.len → ∃ m rest, s.inputs = m :: rest ∧
      (m = .reset ∨ ∃ w h, m = .command w ∧ decode w = .ok (.setlen h))) ∧
    (t.faulted ≠ s.faulted → ∃ m rest, s.inputs = m :: rest ∧
      (m = .reset ∨ ∃ w, m = .command w ∧ decode w = .ok .calcCrc)) ∧
    ((∃ k, memByte t.mem k ≠ memByte s.mem k) → ∃ a b rest, s.inputs = .write a b :: rest) ∧
    (t.reads ≠ s.reads → ∃ w rest, s.inputs = .command w :: rest ∧ decode w = .ok .calcCrc)

/-! ### The commands: encoding, result and frame of each

The result is an equality of whole states, so it says also what stays: every register, the parameters, memory and the records
not named. -/

/-- R48, NOP: word 0x00000000; responds (OK, 0x00); no state changes; nonzero bits 23:0 are ILLEGAL; on a faulted engine the
answer is FAULT (60_exceptions.md R60, and `exec`'s own check of FAULTED: log 11). -/
def Obligations.NopRespondsAndChangesNothing : Prop :=
  encode .nop = 0x00000000#32 ∧
  (∀ w : Word, w.extractLsb' 24 8 = 0x00#8 → w.extractLsb' 0 24 ≠ 0#24 → answeredIllegal w) ∧
  (∀ s : State, s.faulted = false →
    exec .nop s = .next { s with responses := s.responses ++ [⟨.ok, 0x00#8⟩] }) ∧
  (∀ s : State, s.faulted = true →
    exec .nop s = .next { s with responses := s.responses ++ [⟨.fault, 0x00#8⟩] })

/-- R44, INIT: word 0x01000000; ACC becomes 0x00, response (OK, 0x00), nothing else changes (FAULTED, ADDR, LEN, POLY among it);
nonzero bits 23:0 are ILLEGAL; with ACC already 0x00 only the response is new. -/
def Obligations.InitZeroesTheAccumulator : Prop :=
  encode .init = 0x01000000#32 ∧
  (∀ w : Word, w.extractLsb' 24 8 = 0x01#8 → w.extractLsb' 0 24 ≠ 0#24 → answeredIllegal w) ∧
  (∀ s : State, s.faulted = false →
    exec .init s = .next { s with acc := 0x00#8, responses := s.responses ++ [⟨.ok, 0x00#8⟩] }) ∧
  (∀ s : State, s.faulted = false → s.acc = 0x00#8 →
    exec .init s = .next { s with responses := s.responses ++ [⟨.ok, 0x00#8⟩] })

/-- R45, UPDATE: word 0x020000bb; ACC becomes TABLE[ACC ^ IMM8], which is the response; nothing else changes, so no memory is
read and it cannot fault; cmd[23:8] ≠ 0 is ILLEGAL; from ACC = 0x00 it gives TABLE[IMM8]. The last clause, IMM8 = ACC giving
0x00, is no sentence of R45's own: it is R45's "[derived: from rule R16]", an inference from TABLE[0] = 0x00. -/
def Obligations.UpdateFoldsOneByte : Prop :=
  (∀ b : Byte, encode (.update b) = 0x020000#24 ++ b) ∧
  (∀ w : Word, w.extractLsb' 24 8 = 0x02#8 → w.extractLsb' 8 16 ≠ 0x0000#16 → answeredIllegal w) ∧
  (∀ (s : State) (b : Byte), s.faulted = false →
    exec (.update b) s = .next { s with
      acc := tableAt s (s.acc ^^^ b), responses := s.responses ++ [⟨.ok, tableAt s (s.acc ^^^ b)⟩] }) ∧
  (∀ (s : State) (b : Byte), s.faulted = false → s.acc = 0x00#8 →
    exec (.update b) s = .next { s with
      acc := tableAt s b, responses := s.responses ++ [⟨.ok, tableAt s b⟩] }) ∧
  (∀ s : State, s.faulted = false →
    exec (.update s.acc) s = .next { s with acc := 0x00#8, responses := s.responses ++ [⟨.ok, 0x00#8⟩] })

/-- R46, CALC: word 0x03000000. LEN = 0 answers 0x00 and examines nothing. A buffer that fits and is readable is read once, in
ascending order, and ACC and the response are `Calculate` of its bytes, whatever ACC was; ADDR and LEN stay. Otherwise the
outcome is FAULT: FAULTED set, ACC some value that no next command shows (60_exceptions.md R60, and `exec`'s own check of
FAULTED: log 11), ADDR and LEN as they were, nothing read. Two CALCs in a row over unchanged memory give equal results. -/
def Obligations.CalcComputesTheCrcOfTheBuffer : Prop :=
  encode .calcCrc = 0x03000000#32 ∧
  (∀ w : Word, w.extractLsb' 24 8 = 0x03#8 → w.extractLsb' 0 24 ≠ 0#24 → answeredIllegal w) ∧
  (∀ s : State, s.faulted = false → s.len = 0x0000#16 →
    exec .calcCrc s = .next { s with acc := 0x00#8, responses := s.responses ++ [⟨.ok, 0x00#8⟩] }) ∧
  (∀ s : State, s.faulted = false → s.len ≠ 0x0000#16 → bufferOk s →
    exec .calcCrc s = .next { s with
      acc := calculate s.bitOrder s.poly (bufferBytes s),
      reads := s.reads ++ (List.range s.len.toNat).map (fun k => s.addr.toNat + k),
      responses := s.responses ++ [⟨.ok, calculate s.bitOrder s.poly (bufferBytes s)⟩] }) ∧
  (∀ s : State, s.faulted = false → ¬ bufferOk s →
    ∃ (v : Byte) (n : Nat), exec .calcCrc s = .next { s with
      acc := v, faulted := true, freeIdx := n, responses := s.responses ++ [⟨.fault, 0x00#8⟩] }) ∧
  (∀ (s t : State) (i : Instr), s.faulted = false → ¬ bufferOk s → exec .calcCrc s = .next t →
    exec i t = .next { t with responses := t.responses ++ [⟨.fault, 0x00#8⟩] }) ∧
  (∀ s t : State, s.faulted = false → bufferOk s → exec .calcCrc s = .next t →
    ∃ u, exec .calcCrc t = .next u ∧ u.acc = t.acc ∧ u.responses.getLast? = t.responses.getLast?)

/-- R59, entry to the faulted state: when CALC raises Fault, FAULTED becomes 1, the response is (FAULT, 0x00), ADDR, LEN, POLY and
TABLE are unchanged, no memory byte is read or changed, nothing else is recorded, and the next command is answered FAULT
(60_exceptions.md R60, and `exec`'s own check of FAULTED: log 11). -/
def Obligations.CalcFaultEntersTheFaultedState : Prop :=
  ∀ s : State, s.faulted = false → ¬ bufferOk s →
    ∃ t, exec .calcCrc s = .next t ∧ t.faulted = true ∧ t.responses = s.responses ++ [⟨.fault, 0x00#8⟩] ∧
      t.addr = s.addr ∧ t.len = s.len ∧ t.poly = s.poly ∧ (∀ i : Byte, tableAt t i = tableAt s i) ∧
      t.reads = s.reads ∧ t.mem = s.mem ∧ t.inputs = s.inputs ∧ t.bitOrder = s.bitOrder ∧ t.readable = s.readable ∧
      ∀ i : Instr, exec i t = .next { t with responses := t.responses ++ [⟨.fault, 0x00#8⟩] }

/-- R31: with LEN > 0 and ADDR + LEN above 2^32 CALC faults and reads nothing, whatever is readable; a readable buffer that ends
exactly at 0xFFFFFFFF completes. -/
def Obligations.BufferMayEndAtTheTopButNotCrossIt : Prop :=
  (∀ s : State, s.faulted = false → s.len ≠ 0x0000#16 →
    4294967296 < (s.addr.setWidth 33).toNat + (s.len.setWidth 33).toNat →
      ∃ t, exec .calcCrc s = .next t ∧ t.faulted = true ∧ t.reads = s.reads ∧
        t.responses = s.responses ++ [⟨.fault, 0x00#8⟩]) ∧
  (∀ s : State, s.faulted = false → s.len ≠ 0x0000#16 → s.addr.toNat + s.len.toNat = 4294967296 →
    (∀ k < s.len.toNat, readableIn s.readable (s.addr.toNat + k) = true) →
      ∃ t, exec .calcCrc s = .next t ∧ t.faulted = false ∧
        t.acc = calculate s.bitOrder s.poly (bufferBytes s) ∧
        t.responses = s.responses ++ [⟨.ok, t.acc⟩])

/-- One byte of the buffer that is not readable is enough: CALC faults and reads nothing, wherever in the buffer the byte lies;
address 0 is no exception (20_memory.md R26, R30, R32). -/
def Obligations.OneUnreadableByteStopsTheWholeRead : Prop :=
  ∀ (s : State) (k : Nat), s.faulted = false → k < s.len.toNat →
    readableIn s.readable (s.addr.toNat + k) = false →
      ∃ t, exec .calcCrc s = .next t ∧ t.faulted = true ∧ t.reads = s.reads ∧
        t.responses = s.responses ++ [⟨.fault, 0x00#8⟩]

/-- R52, RDACC: word 0x04000000; responds (OK, ACC) and changes no state; nonzero bits 23:0 are ILLEGAL; after reset it answers
0x00, and after a CALC that completes, that CALC's result. -/
def Obligations.RdaccAnswersTheAccumulator : Prop :=
  encode .rdacc = 0x04000000#32 ∧
  (∀ w : Word, w.extractLsb' 24 8 = 0x04#8 → w.extractLsb' 0 24 ≠ 0#24 → answeredIllegal w) ∧
  (∀ s : State, s.faulted = false →
    exec .rdacc s = .next { s with responses := s.responses ++ [⟨.ok, s.acc⟩] }) ∧
  (∃ t, exec .rdacc State.reset = .next t ∧ t.responses = [⟨.ok, 0x00#8⟩]) ∧
  (∀ s : State, s.faulted = false → bufferOk s →
    ∃ t u r, exec .calcCrc s = .next t ∧ t.responses = s.responses ++ [r] ∧
      exec .rdacc t = .next u ∧ u.responses = t.responses ++ [r])

/-- R53, RDPOLY: word 0x05000000; responds (OK, POLY) and changes no state; nonzero bits 23:0 are ILLEGAL; in a state of this
engine the answer is POLY_VALUE, and it is so after any further move of the host. -/
def Obligations.RdpolyAnswersThePolynomial : Prop :=
  encode .rdpoly = 0x05000000#32 ∧
  (∀ w : Word, w.extractLsb' 24 8 = 0x05#8 → w.extractLsb' 0 24 ≠ 0#24 → answeredIllegal w) ∧
  (∀ s : State, s.faulted = false →
    exec .rdpoly s = .next { s with responses := s.responses ++ [⟨.ok, s.poly⟩] }) ∧
  (∀ s t : State, Hardwired s → step s = .next t → t.faulted = false →
    exec .rdpoly t = .next { t with responses := t.responses ++ [⟨.ok, Config.polyValue⟩] })

/-- R54, RDTBL: word 0x060000ii; responds (OK, TABLE[IMM8]) for every index and changes no state (ACC among it); cmd[23:8] ≠ 0 is
ILLEGAL. The last two clauses rest on other rules: index 0 answers 0x00 by R16's derived fact, and RDTBL answers what an UPDATE of
the same byte from ACC = 0x00 answers by R45's corner case (95_test_vectors.md P4). -/
def Obligations.RdtblAnswersTheTableEntry : Prop :=
  (∀ b : Byte, encode (.rdtbl b) = 0x060000#24 ++ b) ∧
  (∀ w : Word, w.extractLsb' 24 8 = 0x06#8 → w.extractLsb' 8 16 ≠ 0x0000#16 → answeredIllegal w) ∧
  (∀ (s : State) (b : Byte), s.faulted = false →
    exec (.rdtbl b) s = .next { s with responses := s.responses ++ [⟨.ok, tableAt s b⟩] }) ∧
  (∀ s : State, s.faulted = false →
    exec (.rdtbl 0x00#8) s = .next { s with responses := s.responses ++ [⟨.ok, 0x00#8⟩] }) ∧
  (∀ (s : State) (b : Byte), s.faulted = false → s.acc = 0x00#8 →
    ∃ t u, exec (.rdtbl b) s = .next t ∧ exec (.update b) s = .next u ∧ t.responses = u.responses)

/-- R49, SETADDRL: word 0x0700hhhh; ADDR[15:0] becomes IMM16, ADDR[31:16] and everything else stay, response (OK, 0x00); RSV ≠ 0 is
ILLEGAL; the new ADDR is not checked against Readable. -/
def Obligations.SetaddrlWritesTheLowHalf : Prop :=
  (∀ h : Half, encode (.setaddrl h) = 0x0700#16 ++ h) ∧
  (∀ w : Word, w.extractLsb' 24 8 = 0x07#8 → w.extractLsb' 16 8 ≠ 0x00#8 → answeredIllegal w) ∧
  (∀ (s : State) (h : Half), s.faulted = false →
    exec (.setaddrl h) s = .next { s with
      addr := s.addr.extractLsb' 16 16 ++ h, responses := s.responses ++ [⟨.ok, 0x00#8⟩] })

/-- R50, SETADDRH: word 0x0800hhhh; ADDR[31:16] becomes IMM16, ADDR[15:0] and everything else stay, response (OK, 0x00); RSV ≠ 0
is ILLEGAL; SETADDRL and SETADDRH in either order leave the same ADDR. -/
def Obligations.SetaddrhWritesTheHighHalf : Prop :=
  (∀ h : Half, encode (.setaddrh h) = 0x0800#16 ++ h) ∧
  (∀ w : Word, w.extractLsb' 24 8 = 0x08#8 → w.extractLsb' 16 8 ≠ 0x00#8 → answeredIllegal w) ∧
  (∀ (s : State) (h : Half), s.faulted = false →
    exec (.setaddrh h) s = .next { s with
      addr := h ++ s.addr.extractLsb' 0 16, responses := s.responses ++ [⟨.ok, 0x00#8⟩] }) ∧
  (∀ (s : State) (lo hi : Half), s.faulted = false →
    ∃ t u t' u', exec (.setaddrl lo) s = .next t ∧ exec (.setaddrh hi) t = .next u ∧
      exec (.setaddrh hi) s = .next t' ∧ exec (.setaddrl lo) t' = .next u' ∧ u = u')

/-- R51, SETLEN: word 0x0900hhhh; LEN becomes IMM16, everything else stays, response (OK, 0x00); RSV ≠ 0 is ILLEGAL; LEN = 0 is legal
and a CALC after it answers 0x00. -/
def Obligations.SetlenWritesTheLength : Prop :=
  (∀ h : Half, encode (.setlen h) = 0x0900#16 ++ h) ∧
  (∀ w : Word, w.extractLsb' 24 8 = 0x09#8 → w.extractLsb' 16 8 ≠ 0x00#8 → answeredIllegal w) ∧
  (∀ (s : State) (h : Half), s.faulted = false →
    exec (.setlen h) s = .next { s with len := h, responses := s.responses ++ [⟨.ok, 0x00#8⟩] }) ∧
  (∀ s : State, s.faulted = false →
    ∃ t u, exec (.setlen 0x0000#16) s = .next t ∧ exec .calcCrc t = .next u ∧
      u.responses = t.responses ++ [⟨.ok, 0x00#8⟩])

/-- The frame of NOP, RDACC, RDPOLY and RDTBL: only the responses grow (R48, R52, R53, R54). On a faulted engine it is R60's, and
`exec`'s own check of FAULTED (log 11). -/
def Obligations.FrameOfReadingCommands : Prop :=
  ∀ (i : Instr) (s t : State),
    (i = .nop ∨ i = .rdacc ∨ i = .rdpoly ∨ ∃ b, i = .rdtbl b) → exec i s = .next t →
      t.acc = s.acc ∧ t.poly = s.poly ∧ t.addr = s.addr ∧ t.len = s.len ∧ t.faulted = s.faulted ∧
      t.bitOrder = s.bitOrder ∧ t.readable = s.readable ∧ t.inputs = s.inputs ∧ t.reads = s.reads ∧
      t.freeIdx = s.freeIdx ∧ (∀ a : Nat, memByte t.mem a = memByte s.mem a) ∧
      (∀ k : Byte, tableAt t k = tableAt s k)

/-- The frame of INIT and UPDATE: only ACC changes beside the responses, and neither reads or writes memory (R44, R45). On a
faulted engine it is R60's, and `exec`'s own check of FAULTED (log 11). -/
def Obligations.FrameOfInitAndUpdate : Prop :=
  ∀ (i : Instr) (s t : State), (i = .init ∨ ∃ b, i = .update b) → exec i s = .next t →
    t.poly = s.poly ∧ t.addr = s.addr ∧ t.len = s.len ∧ t.faulted = s.faulted ∧
    t.bitOrder = s.bitOrder ∧ t.readable = s.readable ∧ t.inputs = s.inputs ∧ t.reads = s.reads ∧
    t.freeIdx = s.freeIdx ∧ (∀ a : Nat, memByte t.mem a = memByte s.mem a) ∧
    (∀ k : Byte, tableAt t k = tableAt s k)

/-- The frame of SETADDRL, SETADDRH and SETLEN: each changes its own register, or half of it, and no other (R49, R50, R51).
On a faulted engine it is R60's, and `exec`'s own check of FAULTED (log 11). -/
def Obligations.FrameOfRegisterWrites : Prop :=
  ∀ (i : Instr) (s t : State) (h : Half), (i = .setaddrl h ∨ i = .setaddrh h ∨ i = .setlen h) → exec i s = .next t →
    t.acc = s.acc ∧ t.poly = s.poly ∧ t.faulted = s.faulted ∧ t.bitOrder = s.bitOrder ∧ t.readable = s.readable ∧
    t.inputs = s.inputs ∧ t.reads = s.reads ∧ t.freeIdx = s.freeIdx ∧
    (∀ a : Nat, memByte t.mem a = memByte s.mem a) ∧ (∀ k : Byte, tableAt t k = tableAt s k) ∧
    (i = .setlen h → t.addr = s.addr) ∧ (i ≠ .setlen h → t.len = s.len) ∧
    (i = .setaddrl h → t.addr.extractLsb' 16 16 = s.addr.extractLsb' 16 16) ∧
    (i = .setaddrh h → t.addr.extractLsb' 0 16 = s.addr.extractLsb' 0 16)

/-- The frame of CALC, completed or faulted: ADDR, LEN, POLY, TABLE and every byte of memory stay, and FAULTED never goes from 1 to
0 (R46, R59). On a faulted engine ACC stays too and nothing is read: that is R60's, and stands at `exec` by its own check of
FAULTED (log 11). -/
def Obligations.FrameOfCalc : Prop :=
  ∀ s t : State, exec .calcCrc s = .next t →
    t.poly = s.poly ∧ t.addr = s.addr ∧ t.len = s.len ∧ t.bitOrder = s.bitOrder ∧ t.readable = s.readable ∧
    t.inputs = s.inputs ∧ (∀ a : Nat, memByte t.mem a = memByte s.mem a) ∧
    (∀ k : Byte, tableAt t k = tableAt s k) ∧ (s.faulted = true → t.faulted = true ∧ t.acc = s.acc) ∧
    (t.faulted = false → t.freeIdx = s.freeIdx) ∧ (t.faulted = true → t.reads = s.reads)

/-- A second CALC over unchanged registers and memory gives the first one's result (40_crc_compute.md R46; ALMA §8). -/
def Obligations.CalcTwiceGivesTheSameResult : Prop :=
  ∀ s t : State, s.faulted = false → exec .calcCrc s = .next t → t.faulted = false →
    ∃ u r, exec .calcCrc t = .next u ∧ u.acc = t.acc ∧ u.faulted = false ∧
      t.responses = s.responses ++ [r] ∧ u.responses = t.responses ++ [r]

/-! ### Memory and isolation -/

/-- CALC's answer depends on nothing but LEN, whether the buffer fits below the top, the readability and contents of the buffer's
bytes, POLY and BIT_ORDER. It does not depend on where the buffer lies (the two buffers may be at different ADDRs), on where
else memory is readable, on other bytes, or on the old ACC (40_crc_compute.md R43, R46; 20_memory.md R26, R31). -/
def Obligations.CalcDependsOnlyOnTheBuffer : Prop :=
  ∀ s₁ s₂ : State, s₁.faulted = false → s₂.faulted = false → s₁.len = s₂.len →
    s₁.poly = s₂.poly → s₁.bitOrder = s₂.bitOrder →
    (s₁.addr.toNat + s₁.len.toNat ≤ 4294967296 ↔ s₂.addr.toNat + s₂.len.toNat ≤ 4294967296) →
    (∀ k < s₁.len.toNat,
      readableIn s₁.readable (s₁.addr.toNat + k) = readableIn s₂.readable (s₂.addr.toNat + k) ∧
      memByte s₁.mem (s₁.addr.toNat + k) = memByte s₂.mem (s₂.addr.toNat + k)) →
    ∃ t₁ t₂ r, exec .calcCrc s₁ = .next t₁ ∧ exec .calcCrc s₂ = .next t₂ ∧
      t₁.responses = s₁.responses ++ [r] ∧ t₂.responses = s₂.responses ++ [r] ∧ t₁.faulted = t₂.faulted ∧
      (t₁.faulted = false → t₁.acc = t₂.acc)

/-- ADDR and LEN are write-only: no command but CALC answers anything that depends on them (10_state.md R20). On a faulted
engine every answer is R60's, and `exec`'s own check of FAULTED (log 11). -/
def Obligations.OnlyCalcShowsAddrAndLen : Prop :=
  ∀ (i : Instr) (s : State) (a : Addr) (n : Half), i ≠ .calcCrc →
    ∃ t u, exec i s = .next t ∧ exec i { s with addr := a, len := n } = .next u ∧
      t.responses = u.responses ∧ t.acc = u.acc ∧ t.faulted = u.faulted ∧ t.reads = u.reads

/-- A CALC sees every host write made before it, and nothing else changes what it reads (20_memory.md R25, R27, R34). Whatever
moves come before a CALC (writes, commands of any kind, resets, in any order), memory then holds at each address the byte last
written there, else the byte it began with; and if the engine is then not faulted and the buffer may be read, the CALC computes
the CRC of those bytes. That a reset among the moves leaves memory as it is is the model's reading of 70_reset_and_hazards.md R70,
which gives values to the engine's state alone (log 19). -/
def Obligations.CalcSeesEarlierHostWrites : Prop :=
  ∀ (s : State) (ms rest : List HostMove), Memory.wf s.mem →
    s.inputs = ms ++ .command 0x03000000#32 :: rest →
      ∃ u, runFor ms.length s = .next u ∧ u.inputs = .command 0x03000000#32 :: rest ∧
        (∀ k : Nat, memByte u.mem k = byteAfter ms k (memByte s.mem k)) ∧
        (u.faulted = false → bufferOk u →
          ∃ t, runFor (ms.length + 1) s = .next t ∧ t.inputs = rest ∧ t.faulted = false ∧
            t.responses = u.responses ++ [⟨.ok, t.acc⟩] ∧
            t.acc = calculate s.bitOrder s.poly
              ((List.range u.len.toNat).map fun k =>
                byteAfter ms (u.addr.toNat + k) (memByte s.mem (u.addr.toNat + k))))

/-- The model leaves out no platform: every predicate on 32-bit addresses is the `Readable` of some list of ranges, none of which
reaches outside the space, and every memory contents is the contents of some canonical list (00_scope.md R9; log 3, 4). -/
def Obligations.EveryPlatformIsRepresented : Prop :=
  (∀ f : Addr → Bool, ∃ rs : List Region, ∀ a : Addr, readableIn rs a.toNat = f a) ∧
  (∀ (rs : List Region) (a : Nat), readableIn rs a = true → a < 4294967296) ∧
  (∀ f : Addr → Byte, ∃ m : Memory, Memory.wf m ∧ ∀ a : Addr, memByte m a.toNat = f a)

/-! ### The table and the CRC -/

/-- R14, R15 and R16 in the numbers of the spec's pseudocode: each entry is eight steps from i of doubling (or halving) and, when
the bit tested is 1, XORing POLY in. The loops are the spec's own `[from general knowledge, not in source]`. -/
def Obligations.TableEntriesFollowTheLoops : Prop :=
  ∀ (s : State) (i : Byte), tableAt s i =
    match s.bitOrder with
    | .msbFirst =>
      (List.range 8).foldl
        (fun c _ => if 128 ≤ c.toNat then BitVec.ofNat 8 (c.toNat * 2) ^^^ s.poly else BitVec.ofNat 8 (c.toNat * 2)) i
    | .lsbFirst =>
      (List.range 8).foldl
        (fun c _ => if c.toNat % 2 = 1 then BitVec.ofNat 8 (c.toNat / 2) ^^^ s.poly else BitVec.ofNat 8 (c.toNat / 2)) i

/-- TABLE[0] = 0x00 always, TABLE[1] = POLY for MSB_FIRST, TABLE[0x80] = POLY for LSB_FIRST (10_state.md R16's derived facts;
95_test_vectors.md L2.1). -/
def Obligations.TableEntriesTheSpecDerives : Prop :=
  (∀ (o : BitOrder) (p : Byte), tableGen o p 0x00#8 = 0x00#8) ∧
  (∀ p : Byte, tableGen .msbFirst p 0x01#8 = p) ∧
  (∀ p : Byte, tableGen .lsbFirst p 0x80#8 = p)

/-- TABLE is a bijection on bytes when the bit the loop XORs through is set in POLY: bit 0 for MSB_FIRST, bit 7 for LSB_FIRST; and
for MSB_FIRST with POLY = 0x06 it is not (10_state.md R16's derived fact; 95_test_vectors.md L2.1). -/
def Obligations.TableIsABijection : Prop :=
  (∀ p : Byte, p.getLsbD 0 = true → Function.Bijective (tableGen .msbFirst p)) ∧
  (∀ p : Byte, p.getLsbD 7 = true → Function.Bijective (tableGen .lsbFirst p)) ∧
  ¬ Function.Injective (tableGen .msbFirst 0x06#8)

/-- TABLE is linear over XOR, whatever POLY and BIT_ORDER (a consequence of R14 and R15). -/
def Obligations.TableIsLinearOverXor : Prop :=
  ∀ (o : BitOrder) (p x y : Byte), tableGen o p (x ^^^ y) = tableGen o p x ^^^ tableGen o p y

/-- R43, `Calculate`: 0x00 for no bytes; one more byte at the end folds it into the value so far, by R42's
`TABLE[acc ^ b]`; nothing is done to the result. -/
def Obligations.CalculateFoldsFromZero : Prop :=
  ∀ (o : BitOrder) (p : Byte), calculate o p [] = 0x00#8 ∧
    ∀ (ds : List Byte) (d : Byte), calculate o p (ds ++ [d]) = tableGen o p (calculate o p ds ^^^ d)

/-- R47 item 3: `Calculate(x ++ y)` is the fold of y from `Calculate(x)`, so a buffer may be split across UPDATE commands: `k`
UPDATEs from the state a CALC of x leaves end with ACC = Calculate(x ++ y). -/
def Obligations.BufferMayBeSplitAnywhere : Prop :=
  ∀ (s : State) (y : List Byte) (rest : List HostMove), s.faulted = false → bufferOk s →
    s.inputs = .command 0x03000000#32 :: (y.map fun d => .command (encode (.update d))) ++ rest →
      ∃ t, runFor (y.length + 1) s = .next t ∧ t.inputs = rest ∧
        t.acc = calculate s.bitOrder s.poly (bufferBytes s ++ y)

/-- R47 item 1: from any state with FAULTED = 0, INIT, then an UPDATE per byte, then RDACC leaves ACC at `Calculate` of the bytes and
answers RDACC with it, ADDR, LEN and memory as they were; and a CALC over a readable buffer that holds the same bytes, in any
state with the same POLY and BIT_ORDER, leaves and answers the same value. -/
def Obligations.IncrementalFoldEqualsCalc : Prop :=
  ∀ (s : State) (ds : List Byte) (rest : List HostMove), s.faulted = false →
    s.inputs = .command (encode .init) :: (ds.map fun d => .command (encode (.update d))) ++
      .command (encode .rdacc) :: rest →
    ∃ t, runFor (ds.length + 2) s = .next t ∧ t.inputs = rest ∧
      t.acc = calculate s.bitOrder s.poly ds ∧
      t.responses.getLast? = some ⟨.ok, calculate s.bitOrder s.poly ds⟩ ∧
      t.responses.length = s.responses.length + ds.length + 2 ∧
      t.addr = s.addr ∧ t.len = s.len ∧ t.faulted = false ∧ t.mem = s.mem ∧ t.reads = s.reads ∧
      ∀ c : State, c.faulted = false → c.poly = s.poly → c.bitOrder = s.bitOrder → bufferOk c → bufferBytes c = ds →
        ∃ u, exec .calcCrc c = .next u ∧ u.acc = t.acc ∧ u.responses.getLast? = t.responses.getLast?

/-- R47 item 4: from ACC = 0x00, any number of UPDATEs with 0x00 leaves ACC = 0x00. -/
def Obligations.ZeroBytesLeaveTheAccumulatorZero : Prop :=
  ∀ (n : Nat) (s : State) (rest : List HostMove), s.faulted = false → s.acc = 0x00#8 →
    s.inputs = List.replicate n (.command 0x02000000#32) ++ rest →
      ∃ t, runFor n s = .next t ∧ t.inputs = rest ∧ t.acc = 0x00#8 ∧
        t.responses = s.responses ++ List.replicate n ⟨.ok, 0x00#8⟩

/-- The table-driven fold of any bytes from any accumulator is what a register gives that takes the same bytes bit by bit,
comparing each bit with the one shifted out. The bit-at-a-time register is the model's own rendering (`Safety.serialCrc`):
R47 item 2's BitUpdate XORs the whole byte in first and then runs the eight steps, and its general statement is the spec's
general knowledge (93 K3). -/
def Obligations.TableFoldEqualsBitSerialCrc : Prop :=
  ∀ (o : BitOrder) (p acc : Byte) (ds : List Byte), crcFoldList o p acc ds = serialCrc o p acc ds

/-- The Glossary's "polynomial division over a bit stream": `Calculate` is the remainder of the message times x^8 on division by
x^8 + POLY over GF(2), with POLY and the bytes read in the direction of BIT_ORDER. `Calculate` is R42's and R43's; the Glossary
says "polynomial division" and no more, and the factor x^8, the leading term of the generator and the reflected reading are
general knowledge behind the loops of R14 and R15 (93 K1, K2). -/
def Obligations.CalculateIsThePolynomialRemainder : Prop :=
  ∀ (o : BitOrder) (p : Byte) (ds : List Byte),
    polyOf o (calculate o p ds) = (messagePoly o ds * Polynomial.X ^ 8) %ₘ generator o p

/-- A buffer followed by its own CRC has CRC 0x00, for every POLY and BIT_ORDER (95_test_vectors.md L2.3's derived row, in
general). -/
def Obligations.BufferWithItsOwnCrcGivesZero : Prop :=
  ∀ (o : BitOrder) (p : Byte) (ds : List Byte), calculate o p (ds ++ [calculate o p ds]) = 0x00#8

/-- When POLY has the bit that makes TABLE a bijection (bit 0 for MSB_FIRST, bit 7 for LSB_FIRST; without it the statement is
false, as POLY = 0x06 shows), the CRC detects every change of one byte: two states whose buffers are the
same length and differ in exactly one byte give different CALC results (10_state.md R16, 40_crc_compute.md R43, R46). -/
def Obligations.OneChangedByteIsDetected : Prop :=
  ∀ (s₁ s₂ : State) (pre post : List Byte) (x y : Byte), x ≠ y →
    s₁.faulted = false → s₂.faulted = false → s₁.poly = s₂.poly → s₁.bitOrder = s₂.bitOrder →
    (match s₁.bitOrder with | .msbFirst => s₁.poly.getLsbD 0 | .lsbFirst => s₁.poly.getLsbD 7) = true →
    bufferOk s₁ → bufferOk s₂ → bufferBytes s₁ = pre ++ x :: post → bufferBytes s₂ = pre ++ y :: post →
      ∃ t₁ t₂, exec .calcCrc s₁ = .next t₁ ∧ exec .calcCrc s₂ = .next t₂ ∧ t₁.acc ≠ t₂.acc

/-! ### The assembler -/

/-- R41's table: each line's words, as bits, and the refusal of an operand that does not fit; `setaddr A` is the two halves, `crc`
adds SETLEN and CALC, `pktcrc` is `crc`. That `.word`, `setaddr`, `crc` and `pktcrc` are refused outside the ranges R41 gives them
is the model's reading (log 22). -/
def Obligations.AssemblerEncodesOrRefuses : Prop :=
  (assemble .nop = some [0x00000000#32] ∧ assemble .init = some [0x01000000#32] ∧
    assemble .calcCrc = some [0x03000000#32] ∧ assemble .rdacc = some [0x04000000#32] ∧
    assemble .rdpoly = some [0x05000000#32]) ∧
  (∀ n : Nat, assemble (.update n) = if n ≤ 255 then some [BitVec.ofNat 32 (0x02000000 + n)] else none) ∧
  (∀ n : Nat, assemble (.rdtbl n) = if n ≤ 255 then some [BitVec.ofNat 32 (0x06000000 + n)] else none) ∧
  (∀ n : Nat, assemble (.setaddrl n) = if n ≤ 65535 then some [BitVec.ofNat 32 (0x07000000 + n)] else none) ∧
  (∀ n : Nat, assemble (.setaddrh n) = if n ≤ 65535 then some [BitVec.ofNat 32 (0x08000000 + n)] else none) ∧
  (∀ n : Nat, assemble (.setlen n) = if n ≤ 65535 then some [BitVec.ofNat 32 (0x09000000 + n)] else none) ∧
  (∀ n : Nat, assemble (.word n) = if n < 4294967296 then some [BitVec.ofNat 32 n] else none) ∧
  (∀ a : Nat, assemble (.setaddr a) =
    if a < 4294967296 then
      some [BitVec.ofNat 32 (0x07000000 + a % 65536), BitVec.ofNat 32 (0x08000000 + a / 65536)] else none) ∧
  (∀ a l : Nat, assemble (.crc a l) =
    if a < 4294967296 ∧ l ≤ 65535 then
      some [BitVec.ofNat 32 (0x07000000 + a % 65536), BitVec.ofNat 32 (0x08000000 + a / 65536),
        BitVec.ofNat 32 (0x09000000 + l), 0x03000000#32] else none) ∧
  (∀ d l : Nat, assemble (.pktcrc d l) = assemble (.crc d l))

/-- The pseudo-instruction `crc A, L` run on an engine that is not faulted is a CALC with ADDR = A and LEN = L, after three OK
responses (30_encoding.md R41). -/
def Obligations.CrcPseudoInstructionIsCalcOverTheBuffer : Prop :=
  ∀ (s : State) (a l : Nat) (ws : List Word) (rest : List HostMove), s.faulted = false →
    assemble (.crc a l) = some ws → s.inputs = commands ws ++ rest →
      runFor 4 s = exec .calcCrc { s with
        addr := BitVec.ofNat 32 a, len := BitVec.ofNat 16 l, inputs := rest,
        responses := s.responses ++ [⟨.ok, 0x00#8⟩, ⟨.ok, 0x00#8⟩, ⟨.ok, 0x00#8⟩] }
end

