-- ==== Sys2Proof/Laws/Memory.lean ====
section
/-! SUPPORT. The laws of memory: every operation keeps the canonical form, a read after a write to the same address gives the
byte written, and a write leaves every other address alone. -/

namespace Sys2Proof.Machine

@[simp] theorem memByte_nil (a : Nat) : memByte [] a = unlistedByte := rfl

theorem memByte_cons (c : Host.Cell) (m : Memory) (a : Nat) :
    memByte (c :: m) a = if a = c.1 then c.2 else memByte m a := rfl

/-- An address below every listed one reads as unlisted. -/
theorem memByte_below {m : Memory} {a : Nat} (h : ∀ c ∈ m, a < c.1) : memByte m a = unlistedByte := by
  induction m with
  | nil => rfl
  | cons c m ih =>
    have hc := h c (by simp)
    rw [memByte_cons, if_neg (by omega), ih fun d hd => h d (by simp [hd])]

theorem memByte_consCell {m : Memory} {a : Nat} {b : Byte} (h : ∀ c ∈ m, a < c.1) (k : Nat) :
    memByte (consCell a b m) k = if k = a then b else memByte m k := by
  unfold consCell
  split
  · split
    · subst_vars; exact memByte_below h
    · rfl
  · rfl

theorem Memory.wf.tail {c : Host.Cell} {m : Memory} (h : Memory.wf (c :: m)) : Memory.wf m :=
  ⟨(List.pairwise_cons.1 h.1).2, fun d hd => h.2 d (by simp [hd])⟩

theorem Memory.wf.head_lt {c : Host.Cell} {m : Memory} (h : Memory.wf (c :: m)) : ∀ d ∈ m, c.1 < d.1 :=
  (List.pairwise_cons.1 h.1).1

/-- What one write does to the read of any address. -/
theorem memByte_memSet {m : Memory} (h : Memory.wf m) (a : Nat) (b : Byte) (k : Nat) :
    memByte (memSet m a b) k = if k = a then b else memByte m k := by
  induction m with
  | nil => exact memByte_consCell (by simp) k
  | cons c m ih =>
    have hd := h.head_lt
    unfold memSet
    split
    · exact memByte_consCell (fun d hd' => by
        rcases List.mem_cons.1 hd' with rfl | h'
        · assumption
        · have := hd d h'; omega) k
    · split
      · rw [memByte_consCell (fun d hd' => by have := hd d hd'; omega), memByte_cons]
        split <;> simp_all
      · rw [memByte_cons, memByte_cons, ih h.tail]
        split
        · rw [if_neg (by omega)]
        · rfl

theorem memByte_memSet_same {m : Memory} (h : Memory.wf m) (a : Nat) (b : Byte) : memByte (memSet m a b) a = b := by
  simp [memByte_memSet h]

theorem memByte_memSet_other {m : Memory} (h : Memory.wf m) {a k : Nat} (b : Byte) (hk : k ≠ a) :
    memByte (memSet m a b) k = memByte m k := by
  simp [memByte_memSet h, hk]

/-- An entry of the written memory is the new one or an old one. -/
theorem mem_memSet {m : Memory} {a : Nat} {b : Byte} {c : Host.Cell} (h : c ∈ memSet m a b) :
    (c = (a, b) ∧ b ≠ unlistedByte) ∨ c ∈ m := by
  induction m with
  | nil => simp only [memSet, consCell] at h; split at h <;> simp_all
  | cons d m ih =>
    unfold memSet consCell at h
    split at h
    · split at h <;> simp_all
    · split at h
      · split at h
        · exact .inr (by simp [h])
        · rcases List.mem_cons.1 h with rfl | h'
          · exact .inl ⟨rfl, ‹_›⟩
          · exact .inr (by simp [h'])
      · rcases List.mem_cons.1 h with rfl | h'
        · exact .inr (by simp)
        · rcases ih h' with h1 | h1
          · exact .inl h1
          · exact .inr (by simp [h1])

theorem wf_consCell {m : Memory} {a : Nat} {b : Byte} (ha : a < Config.addrSpace) (h : Memory.wf m)
    (hlt : ∀ c ∈ m, a < c.1) : Memory.wf (consCell a b m) := by
  unfold consCell
  split
  · exact h
  · refine ⟨List.pairwise_cons.2 ⟨hlt, h.1⟩, fun c hc => ?_⟩
    rcases List.mem_cons.1 hc with rfl | h'
    · exact ⟨ha, ‹_›⟩
    · exact h.2 c h'

/-- A write inside the address space keeps the canonical form. -/
theorem memSet_wf {m : Memory} (h : Memory.wf m) {a : Nat} (ha : a < Config.addrSpace) (b : Byte) :
    Memory.wf (memSet m a b) := by
  induction m with
  | nil => exact wf_consCell ha h (by simp)
  | cons c m ih =>
    have hlt := h.head_lt
    unfold memSet
    split
    · exact wf_consCell ha h fun d hd => by
        rcases List.mem_cons.1 hd with rfl | h'
        · assumption
        · have := hlt d h'; omega
    · split
      · exact wf_consCell ha h.tail fun d hd => by have := hlt d hd; omega
      · have hw := ih h.tail
        refine ⟨List.pairwise_cons.2 ⟨fun d hd => ?_, hw.1⟩, fun d hd => ?_⟩
        · rcases mem_memSet hd with ⟨rfl, -⟩ | h'
          · show c.1 < a; omega
          · exact hlt d h'
        · rcases List.mem_cons.1 hd with rfl | h'
          · exact h.2 d (by simp)
          · exact hw.2 d h'

end Sys2Proof.Machine
end

