-- ==== Sys2Proof/Laws/State.lean ====
section
/-! SUPPORT. One lemma per field per update of the state, each true by unfolding, so that no later proof unfolds an update. -/

namespace Sys2Proof.Machine

/-! ### respond -/

@[simp] theorem respond_acc (st : Status) (d : Byte) (s : State) : (respond st d s).acc = s.acc := rfl
@[simp] theorem respond_poly (st : Status) (d : Byte) (s : State) : (respond st d s).poly = s.poly := rfl
@[simp] theorem respond_addr (st : Status) (d : Byte) (s : State) : (respond st d s).addr = s.addr := rfl
@[simp] theorem respond_len (st : Status) (d : Byte) (s : State) : (respond st d s).len = s.len := rfl
@[simp] theorem respond_faulted (st : Status) (d : Byte) (s : State) : (respond st d s).faulted = s.faulted := rfl
@[simp] theorem respond_bitOrder (st : Status) (d : Byte) (s : State) : (respond st d s).bitOrder = s.bitOrder := rfl
@[simp] theorem respond_readable (st : Status) (d : Byte) (s : State) : (respond st d s).readable = s.readable := rfl
@[simp] theorem respond_mem (st : Status) (d : Byte) (s : State) : (respond st d s).mem = s.mem := rfl
@[simp] theorem respond_inputs (st : Status) (d : Byte) (s : State) : (respond st d s).inputs = s.inputs := rfl
@[simp] theorem respond_responses (st : Status) (d : Byte) (s : State) : (respond st d s).responses = s.responses ++ [⟨st, d⟩] := rfl
@[simp] theorem respond_reads (st : Status) (d : Byte) (s : State) : (respond st d s).reads = s.reads := rfl
@[simp] theorem respond_freeIdx (st : Status) (d : Byte) (s : State) : (respond st d s).freeIdx = s.freeIdx := rfl

/-! ### setFaulted -/

@[simp] theorem setFaulted_acc (s : State) : (setFaulted s).acc = s.acc := rfl
@[simp] theorem setFaulted_poly (s : State) : (setFaulted s).poly = s.poly := rfl
@[simp] theorem setFaulted_addr (s : State) : (setFaulted s).addr = s.addr := rfl
@[simp] theorem setFaulted_len (s : State) : (setFaulted s).len = s.len := rfl
@[simp] theorem setFaulted_faulted (s : State) : (setFaulted s).faulted = true := rfl
@[simp] theorem setFaulted_bitOrder (s : State) : (setFaulted s).bitOrder = s.bitOrder := rfl
@[simp] theorem setFaulted_readable (s : State) : (setFaulted s).readable = s.readable := rfl
@[simp] theorem setFaulted_mem (s : State) : (setFaulted s).mem = s.mem := rfl
@[simp] theorem setFaulted_inputs (s : State) : (setFaulted s).inputs = s.inputs := rfl
@[simp] theorem setFaulted_responses (s : State) : (setFaulted s).responses = s.responses := rfl
@[simp] theorem setFaulted_reads (s : State) : (setFaulted s).reads = s.reads := rfl
@[simp] theorem setFaulted_freeIdx (s : State) : (setFaulted s).freeIdx = s.freeIdx := rfl

/-! ### clearFaulted -/

@[simp] theorem clearFaulted_acc (s : State) : (clearFaulted s).acc = s.acc := rfl
@[simp] theorem clearFaulted_poly (s : State) : (clearFaulted s).poly = s.poly := rfl
@[simp] theorem clearFaulted_addr (s : State) : (clearFaulted s).addr = s.addr := rfl
@[simp] theorem clearFaulted_len (s : State) : (clearFaulted s).len = s.len := rfl
@[simp] theorem clearFaulted_faulted (s : State) : (clearFaulted s).faulted = false := rfl
@[simp] theorem clearFaulted_bitOrder (s : State) : (clearFaulted s).bitOrder = s.bitOrder := rfl
@[simp] theorem clearFaulted_readable (s : State) : (clearFaulted s).readable = s.readable := rfl
@[simp] theorem clearFaulted_mem (s : State) : (clearFaulted s).mem = s.mem := rfl
@[simp] theorem clearFaulted_inputs (s : State) : (clearFaulted s).inputs = s.inputs := rfl
@[simp] theorem clearFaulted_responses (s : State) : (clearFaulted s).responses = s.responses := rfl
@[simp] theorem clearFaulted_reads (s : State) : (clearFaulted s).reads = s.reads := rfl
@[simp] theorem clearFaulted_freeIdx (s : State) : (clearFaulted s).freeIdx = s.freeIdx := rfl

/-! ### writeAcc -/

@[simp] theorem writeAcc_acc (v : Byte) (s : State) : (writeAcc v s).acc = v := rfl
@[simp] theorem writeAcc_poly (v : Byte) (s : State) : (writeAcc v s).poly = s.poly := rfl
@[simp] theorem writeAcc_addr (v : Byte) (s : State) : (writeAcc v s).addr = s.addr := rfl
@[simp] theorem writeAcc_len (v : Byte) (s : State) : (writeAcc v s).len = s.len := rfl
@[simp] theorem writeAcc_faulted (v : Byte) (s : State) : (writeAcc v s).faulted = s.faulted := rfl
@[simp] theorem writeAcc_bitOrder (v : Byte) (s : State) : (writeAcc v s).bitOrder = s.bitOrder := rfl
@[simp] theorem writeAcc_readable (v : Byte) (s : State) : (writeAcc v s).readable = s.readable := rfl
@[simp] theorem writeAcc_mem (v : Byte) (s : State) : (writeAcc v s).mem = s.mem := rfl
@[simp] theorem writeAcc_inputs (v : Byte) (s : State) : (writeAcc v s).inputs = s.inputs := rfl
@[simp] theorem writeAcc_responses (v : Byte) (s : State) : (writeAcc v s).responses = s.responses := rfl
@[simp] theorem writeAcc_reads (v : Byte) (s : State) : (writeAcc v s).reads = s.reads := rfl
@[simp] theorem writeAcc_freeIdx (v : Byte) (s : State) : (writeAcc v s).freeIdx = s.freeIdx := rfl

/-! ### writeAddr -/

@[simp] theorem writeAddr_acc (v : Addr) (s : State) : (writeAddr v s).acc = s.acc := rfl
@[simp] theorem writeAddr_poly (v : Addr) (s : State) : (writeAddr v s).poly = s.poly := rfl
@[simp] theorem writeAddr_addr (v : Addr) (s : State) : (writeAddr v s).addr = v := rfl
@[simp] theorem writeAddr_len (v : Addr) (s : State) : (writeAddr v s).len = s.len := rfl
@[simp] theorem writeAddr_faulted (v : Addr) (s : State) : (writeAddr v s).faulted = s.faulted := rfl
@[simp] theorem writeAddr_bitOrder (v : Addr) (s : State) : (writeAddr v s).bitOrder = s.bitOrder := rfl
@[simp] theorem writeAddr_readable (v : Addr) (s : State) : (writeAddr v s).readable = s.readable := rfl
@[simp] theorem writeAddr_mem (v : Addr) (s : State) : (writeAddr v s).mem = s.mem := rfl
@[simp] theorem writeAddr_inputs (v : Addr) (s : State) : (writeAddr v s).inputs = s.inputs := rfl
@[simp] theorem writeAddr_responses (v : Addr) (s : State) : (writeAddr v s).responses = s.responses := rfl
@[simp] theorem writeAddr_reads (v : Addr) (s : State) : (writeAddr v s).reads = s.reads := rfl
@[simp] theorem writeAddr_freeIdx (v : Addr) (s : State) : (writeAddr v s).freeIdx = s.freeIdx := rfl

/-! ### writeLen -/

@[simp] theorem writeLen_acc (v : Half) (s : State) : (writeLen v s).acc = s.acc := rfl
@[simp] theorem writeLen_poly (v : Half) (s : State) : (writeLen v s).poly = s.poly := rfl
@[simp] theorem writeLen_addr (v : Half) (s : State) : (writeLen v s).addr = s.addr := rfl
@[simp] theorem writeLen_len (v : Half) (s : State) : (writeLen v s).len = v := rfl
@[simp] theorem writeLen_faulted (v : Half) (s : State) : (writeLen v s).faulted = s.faulted := rfl
@[simp] theorem writeLen_bitOrder (v : Half) (s : State) : (writeLen v s).bitOrder = s.bitOrder := rfl
@[simp] theorem writeLen_readable (v : Half) (s : State) : (writeLen v s).readable = s.readable := rfl
@[simp] theorem writeLen_mem (v : Half) (s : State) : (writeLen v s).mem = s.mem := rfl
@[simp] theorem writeLen_inputs (v : Half) (s : State) : (writeLen v s).inputs = s.inputs := rfl
@[simp] theorem writeLen_responses (v : Half) (s : State) : (writeLen v s).responses = s.responses := rfl
@[simp] theorem writeLen_reads (v : Half) (s : State) : (writeLen v s).reads = s.reads := rfl
@[simp] theorem writeLen_freeIdx (v : Half) (s : State) : (writeLen v s).freeIdx = s.freeIdx := rfl

/-! ### hostWrite -/

@[simp] theorem hostWrite_acc (a : Addr) (b : Byte) (s : State) : (hostWrite a b s).acc = s.acc := rfl
@[simp] theorem hostWrite_poly (a : Addr) (b : Byte) (s : State) : (hostWrite a b s).poly = s.poly := rfl
@[simp] theorem hostWrite_addr (a : Addr) (b : Byte) (s : State) : (hostWrite a b s).addr = s.addr := rfl
@[simp] theorem hostWrite_len (a : Addr) (b : Byte) (s : State) : (hostWrite a b s).len = s.len := rfl
@[simp] theorem hostWrite_faulted (a : Addr) (b : Byte) (s : State) : (hostWrite a b s).faulted = s.faulted := rfl
@[simp] theorem hostWrite_bitOrder (a : Addr) (b : Byte) (s : State) : (hostWrite a b s).bitOrder = s.bitOrder := rfl
@[simp] theorem hostWrite_readable (a : Addr) (b : Byte) (s : State) : (hostWrite a b s).readable = s.readable := rfl
@[simp] theorem hostWrite_mem (a : Addr) (b : Byte) (s : State) : (hostWrite a b s).mem = memSet s.mem a.toNat b := rfl
@[simp] theorem hostWrite_inputs (a : Addr) (b : Byte) (s : State) : (hostWrite a b s).inputs = s.inputs := rfl
@[simp] theorem hostWrite_responses (a : Addr) (b : Byte) (s : State) : (hostWrite a b s).responses = s.responses := rfl
@[simp] theorem hostWrite_reads (a : Addr) (b : Byte) (s : State) : (hostWrite a b s).reads = s.reads := rfl
@[simp] theorem hostWrite_freeIdx (a : Addr) (b : Byte) (s : State) : (hostWrite a b s).freeIdx = s.freeIdx := rfl

/-! ### presentCommand -/

@[simp] theorem presentCommand_acc (w : Word) (s : State) : (presentCommand w s).acc = s.acc := rfl
@[simp] theorem presentCommand_poly (w : Word) (s : State) : (presentCommand w s).poly = s.poly := rfl
@[simp] theorem presentCommand_addr (w : Word) (s : State) : (presentCommand w s).addr = s.addr := rfl
@[simp] theorem presentCommand_len (w : Word) (s : State) : (presentCommand w s).len = s.len := rfl
@[simp] theorem presentCommand_faulted (w : Word) (s : State) : (presentCommand w s).faulted = s.faulted := rfl
@[simp] theorem presentCommand_bitOrder (w : Word) (s : State) : (presentCommand w s).bitOrder = s.bitOrder := rfl
@[simp] theorem presentCommand_readable (w : Word) (s : State) : (presentCommand w s).readable = s.readable := rfl
@[simp] theorem presentCommand_mem (w : Word) (s : State) : (presentCommand w s).mem = s.mem := rfl
@[simp] theorem presentCommand_inputs (w : Word) (s : State) : (presentCommand w s).inputs = .command w :: s.inputs := rfl
@[simp] theorem presentCommand_responses (w : Word) (s : State) : (presentCommand w s).responses = s.responses := rfl
@[simp] theorem presentCommand_reads (w : Word) (s : State) : (presentCommand w s).reads = s.reads := rfl
@[simp] theorem presentCommand_freeIdx (w : Word) (s : State) : (presentCommand w s).freeIdx = s.freeIdx := rfl

/-! ### applyReset -/

@[simp] theorem applyReset_acc (s : State) : (applyReset s).acc = 0x00#8 := rfl
@[simp] theorem applyReset_poly (s : State) : (applyReset s).poly = s.poly := rfl
@[simp] theorem applyReset_addr (s : State) : (applyReset s).addr = 0x00000000#32 := rfl
@[simp] theorem applyReset_len (s : State) : (applyReset s).len = 0x0000#16 := rfl
@[simp] theorem applyReset_faulted (s : State) : (applyReset s).faulted = false := rfl
@[simp] theorem applyReset_bitOrder (s : State) : (applyReset s).bitOrder = s.bitOrder := rfl
@[simp] theorem applyReset_readable (s : State) : (applyReset s).readable = s.readable := rfl
@[simp] theorem applyReset_mem (s : State) : (applyReset s).mem = s.mem := rfl
@[simp] theorem applyReset_inputs (s : State) : (applyReset s).inputs = s.inputs := rfl
@[simp] theorem applyReset_responses (s : State) : (applyReset s).responses = s.responses := rfl
@[simp] theorem applyReset_reads (s : State) : (applyReset s).reads = s.reads := rfl
@[simp] theorem applyReset_freeIdx (s : State) : (applyReset s).freeIdx = s.freeIdx := rfl

/-! ### readBuffer -/

@[simp] theorem readBuffer_fst (as : List Nat) (s : State) : (readBuffer as s).1 = as.map (memByte s.mem) := rfl
@[simp] theorem readBuffer_acc (as : List Nat) (s : State) : (readBuffer as s).2.acc = s.acc := rfl
@[simp] theorem readBuffer_poly (as : List Nat) (s : State) : (readBuffer as s).2.poly = s.poly := rfl
@[simp] theorem readBuffer_addr (as : List Nat) (s : State) : (readBuffer as s).2.addr = s.addr := rfl
@[simp] theorem readBuffer_len (as : List Nat) (s : State) : (readBuffer as s).2.len = s.len := rfl
@[simp] theorem readBuffer_faulted (as : List Nat) (s : State) : (readBuffer as s).2.faulted = s.faulted := rfl
@[simp] theorem readBuffer_bitOrder (as : List Nat) (s : State) : (readBuffer as s).2.bitOrder = s.bitOrder := rfl
@[simp] theorem readBuffer_readable (as : List Nat) (s : State) : (readBuffer as s).2.readable = s.readable := rfl
@[simp] theorem readBuffer_mem (as : List Nat) (s : State) : (readBuffer as s).2.mem = s.mem := rfl
@[simp] theorem readBuffer_inputs (as : List Nat) (s : State) : (readBuffer as s).2.inputs = s.inputs := rfl
@[simp] theorem readBuffer_responses (as : List Nat) (s : State) : (readBuffer as s).2.responses = s.responses := rfl
@[simp] theorem readBuffer_reads (as : List Nat) (s : State) : (readBuffer as s).2.reads = s.reads ++ as := rfl
@[simp] theorem readBuffer_freeIdx (as : List Nat) (s : State) : (readBuffer as s).2.freeIdx = s.freeIdx := rfl

end Sys2Proof.Machine
end

