-- ==== Sys2Proof/Laws/Ops.lean ====
section
/-! SUPPORT. One lemma per shared operation that says all it can do, and the meaning of each command as `exec` gives it; proofs
cite these instead of unfolding. -/

namespace Sys2Proof.Machine

/-! ### The operations -/

theorem raise_illegal (s : State) : raise .illegal s = { s with responses := s.responses ++ [⟨.illegal, 0x00#8⟩] } := rfl

theorem raise_fault (s : State) :
    raise .fault s =
      { s with
        acc := Config.freeByte s.freeIdx, faulted := true, freeIdx := s.freeIdx + 1,
        responses := s.responses ++ [⟨.fault, 0x00#8⟩] } := rfl

theorem answerFaulted_eq (s : State) :
    answerFaulted s = { s with responses := s.responses ++ [⟨.fault, 0x00#8⟩] } := rfl

theorem unlessFaulted_clear {s : State} (h : s.faulted = false) (e : State) : unlessFaulted s e = e := by
  simp [unlessFaulted, h]

theorem unlessFaulted_set {s : State} (h : s.faulted = true) (e : State) : unlessFaulted s e = answerFaulted s := by
  simp [unlessFaulted, h]

theorem applyReset_eq (s : State) :
    applyReset s = { s with acc := 0x00#8, addr := 0x00000000#32, len := 0x0000#16, faulted := false } := rfl

/-! ### The buffer -/

theorem mem_bufferAddrs {a : Addr} {n : Half} {x : Nat} : x ∈ bufferAddrs a n ↔ ∃ k < n.toNat, x = a.toNat + k := by
  simp [bufferAddrs, List.mem_range']

theorem bufferAddrs_eq (a : Addr) (n : Half) : bufferAddrs a n = (List.range n.toNat).map (a.toNat + ·) := by
  simp [bufferAddrs, List.range'_eq_map_range]

theorem bufferFits_iff {a : Addr} {n : Half} : bufferFits a n = true ↔ a.toNat + n.toNat ≤ Config.addrSpace := by
  simp [bufferFits]

theorem bufferReadable_iff {rs : List Region} {a : Addr} {n : Half} :
    bufferReadable rs a n = true ↔ ∀ k < n.toNat, readableIn rs (a.toNat + k) = true := by
  simp only [bufferReadable, List.all_eq_true, mem_bufferAddrs]
  exact ⟨fun h k hk => h _ ⟨k, hk, rfl⟩, fun h x ⟨k, hk, hx⟩ => hx ▸ h k hk⟩

theorem readableIn_iff {rs : List Region} {a : Nat} :
    readableIn rs a = true ↔ ∃ r ∈ rs, r.first.toNat ≤ a ∧ a ≤ r.last.toNat := by
  simp [readableIn, regionHolds]

/-! ### CALC: everything it can do -/

theorem calcEffect_empty {s : State} (h : s.len = 0x0000#16) :
    calcEffect s = respond .ok 0x00#8 (writeAcc 0x00#8 s) := by
  simp [calcEffect, h]

theorem calcEffect_reads {s : State} (h : s.len ≠ 0x0000#16) (hf : bufferFits s.addr s.len = true)
    (hr : bufferReadable s.readable s.addr s.len = true) : calcEffect s = calcRead s := by
  simp [calcEffect, h, hf, hr]

theorem calcEffect_faults {s : State} (h : s.len ≠ 0x0000#16)
    (hb : bufferFits s.addr s.len = false ∨ bufferReadable s.readable s.addr s.len = false) :
    calcEffect s = raise .fault s := by
  rcases hb with hb | hb <;> simp [calcEffect, h, hb]

/-- The three ways of CALC (R46), with the condition of each. -/
theorem calcEffect_cases (s : State) :
    (s.len = 0x0000#16 ∧ calcEffect s = respond .ok 0x00#8 (writeAcc 0x00#8 s)) ∨
    (s.len ≠ 0x0000#16 ∧ bufferFits s.addr s.len = true ∧ bufferReadable s.readable s.addr s.len = true ∧
      calcEffect s = calcRead s) ∨
    (s.len ≠ 0x0000#16 ∧ (bufferFits s.addr s.len = false ∨ bufferReadable s.readable s.addr s.len = false) ∧
      calcEffect s = raise .fault s) := by
  by_cases h : s.len = 0x0000#16
  · exact .inl ⟨h, calcEffect_empty h⟩
  · cases hf : bufferFits s.addr s.len with
    | false => exact .inr (.inr ⟨h, .inl rfl, calcEffect_faults h (.inl hf)⟩)
    | true =>
      cases hr : bufferReadable s.readable s.addr s.len with
      | false => exact .inr (.inr ⟨h, .inr rfl, calcEffect_faults h (.inr hr)⟩)
      | true => exact .inr (.inl ⟨h, rfl, rfl, calcEffect_reads h hf hr⟩)

/-! ### The fold -/

@[simp] theorem crcFoldList_nil (o : BitOrder) (p acc : Byte) : crcFoldList o p acc [] = acc := rfl

@[simp] theorem crcFoldList_cons (o : BitOrder) (p acc b : Byte) (bs : List Byte) :
    crcFoldList o p acc (b :: bs) = crcFoldList o p (crcFold o p acc b) bs := rfl

@[simp] theorem crcFoldList_append (o : BitOrder) (p acc : Byte) (xs ys : List Byte) :
    crcFoldList o p acc (xs ++ ys) = crcFoldList o p (crcFoldList o p acc xs) ys := by
  induction xs generalizing acc with
  | nil => rfl
  | cons x xs ih => simp [ih]

/-- The generator's loop applied to zero stays at zero, whatever the polynomial (R16's derived fact). -/
theorem crcShifts_zero (o : BitOrder) (p : Byte) (n : Nat) : crcShifts o p n 0x00#8 = 0x00#8 := by
  induction n with
  | zero => rfl
  | succ n ih => cases o <;> simpa [crcShifts, crcShift, shiftMsb, shiftLsb] using ih

/-! ### Each command -/

/-- Every command ends in a next state, and its effect applies only while FAULTED = 0. -/
theorem exec_eq (i : Instr) (s : State) :
    exec i s = .next (unlessFaulted s
      (match i with
      | .nop => respond .ok 0x00#8 s
      | .init => respond .ok 0x00#8 (writeAcc 0x00#8 s)
      | .update b => updateEffect b s
      | .calcCrc => calcEffect s
      | .rdacc => respond .ok s.acc s
      | .rdpoly => respond .ok s.poly s
      | .rdtbl b => respond .ok (tableAt s b) s
      | .setaddrl h => respond .ok 0x00#8 (writeAddr (withLowHalf s.addr h) s)
      | .setaddrh h => respond .ok 0x00#8 (writeAddr (withHighHalf s.addr h) s)
      | .setlen h => respond .ok 0x00#8 (writeLen h s))) := by
  cases i <;> rfl

theorem exec_faulted {s : State} (h : s.faulted = true) (i : Instr) : exec i s = .next (answerFaulted s) := by
  rw [exec_eq, unlessFaulted_set h]

/-! ### The ports -/

theorem step_idle {s : State} (h : s.inputs = []) : step s = .next s := by
  simp [step, takeMove, h]

theorem step_move {s : State} {m : HostMove} {rest : List HostMove} (h : s.inputs = m :: rest) :
    step s = hostMove m { s with inputs := rest } := by
  simp [step, takeMove, h]

theorem commandStep_faulted {s : State} (h : s.faulted = true) (w : Word) : commandStep w s = .next (answerFaulted s) := by
  simp [commandStep, h]

theorem commandStep_illegal {s : State} (h : s.faulted = false) {w : Word} {e : Reject} (hw : decode w = .error e) :
    commandStep w s = .next (raise .illegal s) := by
  simp [commandStep, h, hw]

/-- A word that decodes runs its instruction, on a faulted engine too: both answer FAULT there. -/
theorem commandStep_ok {w : Word} {i : Instr} (hw : decode w = .ok i) (s : State) : commandStep w s = exec i s := by
  cases h : s.faulted with
  | true => rw [commandStep_faulted h, exec_faulted h]
  | false => simp [commandStep, h, hw]

end Sys2Proof.Machine
end

