-- ==== Sys2Proof/Laws/PerInstr.lean ====
section
/-! SUPPORT. Statements made once per instruction of the table. `EncodingFields`: the word of an instruction has the
instruction's opcode in bits 31:24, zero in RSV, and the instruction's operand bits in 15:0 (30_encoding.md R36, R37). -/

namespace Sys2Proof.Laws.EncodingFields

/-- The three fields every format shares. -/
def Statement (i : Instr) : Prop :=
  opcField (encode i) = i.opc ∧ rsvField (encode i) = 0x00#8 ∧ imm16Field (encode i) = i.operand

/-- The fields of a word laid out as R36 says, whatever is in them. -/
theorem fields_of_layout (o r : Byte) (h : Half) :
    opcField ((o ++ r) ++ h) = o ∧ rsvField ((o ++ r) ++ h) = r ∧ imm16Field ((o ++ r) ++ h) = h := by
  refine ⟨?_, ?_, ?_⟩ <;> apply BitVec.eq_of_getLsbD_eq <;> intro k hk <;>
    simp only [opcField, rsvField, imm16Field, BitVec.getLsbD_extractLsb', BitVec.getLsbD_append]
  · rw [if_neg (by omega), if_neg (by omega)]; simp [hk, show 24 + k - 16 - 8 = k by omega]
  · rw [if_neg (by omega), if_pos (by omega)]; simp [hk, show 16 + k - 16 = k by omega]
  · rw [if_pos (by omega)]; simp [hk]

theorem nop : Statement .nop := fields_of_layout _ _ _
theorem init : Statement .init := fields_of_layout _ _ _
theorem update (imm8 : Byte) : Statement (.update imm8) := fields_of_layout _ _ _
theorem calcCrc : Statement .calcCrc := fields_of_layout _ _ _
theorem rdacc : Statement .rdacc := fields_of_layout _ _ _
theorem rdpoly : Statement .rdpoly := fields_of_layout _ _ _
theorem rdtbl (imm8 : Byte) : Statement (.rdtbl imm8) := fields_of_layout _ _ _
theorem setaddrl (imm16 : Half) : Statement (.setaddrl imm16) := fields_of_layout _ _ _
theorem setaddrh (imm16 : Half) : Statement (.setaddrh imm16) := fields_of_layout _ _ _
theorem setlen (imm16 : Half) : Statement (.setlen imm16) := fields_of_layout _ _ _

end Sys2Proof.Laws.EncodingFields
end

