-- ==== Sys2Proof/Laws/Runs.lean ====
section
/-! SUPPORT. Runs one step at a time, and what it takes for CALC to complete in the terms of the claims. -/

namespace Sys2Proof.Safety

open Sys2Proof.Machine

@[simp] theorem runFor_zero (s : State) : runFor 0 s = .next s := rfl

theorem run_succ_of_step (M : Host.Core) {k : Nat} {s t : M.State} (h : M.step s = .next t) :
    M.run (k + 1) s = M.run k t := by
  rw [Host.Core.run, h]

/-- The first step of a run. -/
theorem runFor_succ {k : Nat} {s t : State} (h : step s = .next t) : runFor (k + 1) s = runFor k t :=
  run_succ_of_step Sys2Proof.core h

/-- `bufferOk` is the negation of what CALC's two checks look for. -/
theorem bufferOk_iff (s : State) :
    bufferOk s ↔
      s.len = 0x0000#16 ∨ (bufferFits s.addr s.len = true ∧ bufferReadable s.readable s.addr s.len = true) := by
  unfold bufferOk
  rw [bufferFits_iff, bufferReadable_iff]
  rfl

/-- The bytes CALC reads are the buffer's. -/
theorem readBuffer_bufferBytes (s : State) : (readBuffer (bufferAddrs s.addr s.len) s).1 = bufferBytes s := by
  simp [bufferAddrs_eq, bufferBytes]

end Sys2Proof.Safety
end

