-- ==== Sys2Proof/Tests/Slice0.lean ====
section
/-! SUPPORT. The model's own tests, and a witness for the hypotheses of every statement that has some.

Expected results come from the spec's vectors (95_test_vectors.md) and examples, never from the model. The table-dependent ones
are for the spec's illustrations I1 (0x07, MSB first) and I2 (0x8C, LSB first), which are not claims about alma's polynomial. -/

namespace Sys2Proof.Tests

open Sys2Proof.Machine Sys2Proof.Safety

/-- The state an outcome goes on in (reset if it stops, which none does). -/
def after : Outcome → State
  | .next s => s
  | .fault _ => State.reset
  | .refused _ => State.reset

/-- "123456789" at 0x1000 (40_crc_compute.md R46's example), readable with the seven bytes after it; POLY as in I1. -/
def demo : State where
  acc := 0x5A#8
  poly := 0x07#8
  addr := 0x00001000#32
  len := 0x0009#16
  faulted := false
  bitOrder := .msbFirst
  readable := [⟨0x00001000#32, 0x0000100F#32⟩]
  mem := [(0x1000, 0x31#8), (0x1001, 0x32#8), (0x1002, 0x33#8), (0x1003, 0x34#8), (0x1004, 0x35#8), (0x1005, 0x36#8),
    (0x1006, 0x37#8), (0x1007, 0x38#8), (0x1008, 0x39#8)]
  inputs := []
  responses := []
  reads := []
  freeIdx := 0

/-- The same with POLY and BIT_ORDER as in I2. -/
def demo2 : State := { demo with poly := 0x8C#8, bitOrder := .lsbFirst }

/-- One byte at the very top, readable. -/
def top : State := { demo with addr := 0xFFFFFFFF#32, len := 0x0001#16, readable := [⟨0xFFFFFFFF#32, 0xFFFFFFFF#32⟩] }

/-- A buffer that crosses the top by one byte (95 L2.4, B6). -/
def crossing : State := { demo with addr := 0xFFFFFFFF#32, len := 0x0002#16, readable := [⟨0x00000000#32, 0xFFFFFFFF#32⟩] }

/-- A buffer whose last byte is not readable (95 L2.4, B9's shape). -/
def unreadable : State := { demo with len := 0x0011#16 }

/-- LEN = 0 (95 L2.4, B2's shape). -/
def empty : State := { demo with addr := 0xFFFFFFFF#32, len := 0x0000#16, readable := [] }

/-- The faulted engine. -/
def faulted : State := { demo with faulted := true, responses := [⟨.fault, 0x00#8⟩] }

/-- The moves of a host that presents these words. -/
def present (ws : List Word) (s : State) : State := { s with inputs := commands ws }

/-! ### WellFormed: a line each check refuses, and its neighbour that it accepts (R41) -/

theorem test_wf_imm8_too_large : (AsmLine.update 256).wf = false ∧ (AsmLine.update 255).wf = true := by decide
theorem test_wf_index_too_large : (AsmLine.rdtbl 256).wf = false ∧ (AsmLine.rdtbl 255).wf = true := by decide
theorem test_wf_imm16_too_large : (AsmLine.setlen 65536).wf = false ∧ (AsmLine.setlen 65535).wf = true := by decide
theorem test_wf_half_too_large :
    (AsmLine.setaddrl 65536).wf = false ∧ (AsmLine.setaddrh 65536).wf = false ∧ (AsmLine.setaddrh 65535).wf = true := by decide
theorem test_wf_word_too_large :
    (AsmLine.word 4294967296).wf = false ∧ (AsmLine.word 4294967295).wf = true := by decide
theorem test_wf_address_too_large :
    (AsmLine.setaddr 4294967296).wf = false ∧ (AsmLine.crc 4294967296 0).wf = false := by decide
theorem test_wf_length_too_large : (AsmLine.crc 0 65536).wf = false ∧ (AsmLine.pktcrc 0 65536).wf = false := by decide
theorem test_memory_wf_refuses :
    ¬ Memory.wf [(2, 0x01#8), (1, 0x01#8)] ∧ ¬ Memory.wf [(1, 0x00#8)] ∧ ¬ Memory.wf [(4294967296, 0x01#8)] := by decide

/-! ### Decoding: every constructor, its word written out bit by bit from R36 and R39 -/

theorem test_decode_nop : decode 0b00000000000000000000000000000000#32 = .ok .nop := by decide
theorem test_decode_init : decode 0b00000001000000000000000000000000#32 = .ok .init := by decide
theorem test_decode_update : decode 0b00000010000000000000000000110001#32 = .ok (.update 0x31#8) := by decide
theorem test_decode_calc : decode 0b00000011000000000000000000000000#32 = .ok .calcCrc := by decide
theorem test_decode_rdacc : decode 0b00000100000000000000000000000000#32 = .ok .rdacc := by decide
theorem test_decode_rdpoly : decode 0b00000101000000000000000000000000#32 = .ok .rdpoly := by decide
theorem test_decode_rdtbl : decode 0b00000110000000000000000010000000#32 = .ok (.rdtbl 0x80#8) := by decide
theorem test_decode_setaddrl : decode 0b00000111000000001011111011101111#32 = .ok (.setaddrl 0xBEEF#16) := by decide
theorem test_decode_setaddrh : decode 0b00001000000000001101111010101101#32 = .ok (.setaddrh 0xDEAD#16) := by decide
theorem test_decode_setlen : decode 0b00001001000000000000000000001001#32 = .ok (.setlen 0x0009#16) := by decide

/-- The illegal words of 95 L2.5, all fourteen. -/
theorem test_illegal_words :
    [0x0A000000#32, 0xFF000000#32, 0x80000000#32, 0x00010000#32, 0x00000001#32, 0x01000001#32, 0x03800000#32, 0x03000100#32,
      0x02000100#32, 0x0201FF00#32, 0x06008000#32, 0x07010000#32, 0x09FF0009#32, 0xFFFFFFFF#32].all
      (fun w => legal w == false && (decode w).toOption == none) = true := by decide

theorem test_decodeTableWord :
    decodeTableWord 32 0x0900FFFF = some (.setlen 0xFFFF#16) ∧ decodeTableWord 32 0x09FF0009 = none ∧
      decodeTableWord 24 0 = some .nop ∧ decodeTableWord 33 0x100000000 = none := by decide

/-! ### The table (95 L2.1): a row of each illustration's table, and the fold -/

theorem test_table_I1 :
    ([0x00, 0x01, 0x80, 0xFF, 0x5A].map fun i => tableGen .msbFirst 0x07#8 (BitVec.ofNat 8 i)) =
      [0x00#8, 0x07#8, 0x89#8, 0xF3#8, 0x81#8] := by decide
theorem test_table_I2 :
    ([0x00, 0x01, 0x80, 0xFF, 0x26].map fun i => tableGen .lsbFirst 0x8C#8 (BitVec.ofNat 8 i)) =
      [0x00#8, 0x5E#8, 0x8C#8, 0x35#8, 0xFE#8] := by decide
theorem test_table_I3 :
    ([0x00, 0x01, 0x80, 0xFF, 0x26].map fun i => tableGen .msbFirst 0xD5#8 (BitVec.ofNat 8 i)) =
      [0x00#8, 0xD5#8, 0xEF#8, 0xF9#8, 0x25#8] := by decide
theorem test_calculate_deadbeef :
    calculate .msbFirst 0x07#8 [0xDE#8, 0xAD#8, 0xBE#8, 0xEF#8] = 0xCA#8 ∧
      calculate .lsbFirst 0x8C#8 [0xDE#8, 0xAD#8, 0xBE#8, 0xEF#8] = 0x84#8 ∧
      calculate .msbFirst 0xD5#8 [0xDE#8, 0xAD#8, 0xBE#8, 0xEF#8] = 0xA5#8 := by decide +kernel

/-! ### The commands (95 L2.2 to L2.7 and the rules' own examples) -/

theorem test_nop : (after (exec .nop demo)).responses = [⟨.ok, 0x00#8⟩] ∧ (after (exec .nop demo)).acc = 0x5A#8 := by decide
theorem test_init : (after (exec .init demo)).acc = 0x00#8 ∧ (after (exec .init demo)).responses = [⟨.ok, 0x00#8⟩] := by decide
theorem test_update_I1 :
    (after (exec (.update 0x31#8) { demo with acc := 0x00#8 })).acc = 0x97#8 ∧
      (after (exec (.update 0x34#8) { demo with acc := 0x12#8 })).responses = [⟨.ok, 0xF2#8⟩] := by decide
theorem test_update_I2 : (after (exec (.update 0x34#8) { demo2 with acc := 0x12#8 })).acc = 0xFE#8 := by decide
theorem test_calc_I1 :
    (after (exec .calcCrc demo)).acc = 0xF4#8 ∧ (after (exec .calcCrc demo)).responses = [⟨.ok, 0xF4#8⟩] ∧
      (after (exec .calcCrc demo)).reads = [0x1000, 0x1001, 0x1002, 0x1003, 0x1004, 0x1005, 0x1006, 0x1007, 0x1008] := by decide +kernel
theorem test_calc_I2 : (after (exec .calcCrc demo2)).acc = 0xA1#8 := by decide +kernel
theorem test_calc_empty_and_top :
    (after (exec .calcCrc empty)).responses = [⟨.ok, 0x00#8⟩] ∧ (after (exec .calcCrc empty)).acc = 0x00#8 ∧
      (after (exec .calcCrc top)).reads = [0xFFFFFFFF] ∧ (after (exec .calcCrc top)).faulted = false := by decide
theorem test_calc_faults :
    (after (exec .calcCrc crossing)).faulted = true ∧ (after (exec .calcCrc crossing)).responses = [⟨.fault, 0x00#8⟩] ∧
      (after (exec .calcCrc unreadable)).faulted = true ∧ (after (exec .calcCrc unreadable)).reads = [] := by decide
theorem test_rdacc : (after (exec .rdacc demo)).responses = [⟨.ok, 0x5A#8⟩] := by decide
theorem test_rdpoly : (after (exec .rdpoly demo2)).responses = [⟨.ok, 0x8C#8⟩] := by decide
theorem test_rdtbl :
    (after (exec (.rdtbl 0x80#8) demo)).responses = [⟨.ok, 0x89#8⟩] ∧ (after (exec (.rdtbl 0x80#8) demo)).acc = 0x5A#8 := by decide
theorem test_setaddrl : (after (exec (.setaddrl 0xBEEF#16) { demo with addr := 0x12345678#32 })).addr = 0x1234BEEF#32 := by decide
theorem test_setaddrh : (after (exec (.setaddrh 0xDEAD#16) { demo with addr := 0x1234BEEF#32 })).addr = 0xDEADBEEF#32 := by decide
theorem test_setlen : (after (exec (.setlen 0x0009#16) empty)).len = 0x0009#16 := by decide

/-- Response words (R38; 95 L2.5). -/
theorem test_response_words :
    Response.word ⟨.ok, 0xF4#8⟩ = 0x00F4#16 ∧ Response.word ⟨.illegal, 0x00#8⟩ = 0x0100#16 ∧
      Response.word ⟨.fault, 0x00#8⟩ = 0x0200#16 := by decide

/-- FAULTED wins over ILLEGAL, and a faulted SETLEN writes nothing (95 L2.7). -/
theorem test_priority :
    (after (step (present [0x0A000000#32] faulted))).responses = [⟨.fault, 0x00#8⟩, ⟨.fault, 0x00#8⟩] ∧
      (after (step (present [0x09000000#32] faulted))).len = 0x0009#16 ∧
      (after (step (present [0x0A000000#32] demo))).responses = [⟨.illegal, 0x00#8⟩] := by decide

/-- The reset row of 95 L2.8. -/
theorem test_reset_move :
    (after (step { demo with acc := 0xF4#8, addr := 0xDEADBEEF#32, faulted := true, inputs := [.reset] })) =
      { demo with acc := 0x00#8, addr := 0x00000000#32, len := 0x0000#16 } := by decide

/-- The first step after reset runs the word placed with withFetchWord. -/
theorem test_first_step_runs_the_word :
    (after (step (State.reset.withFetchWord 32 0x0800DEAD))).addr = 0xDEAD0000#32 ∧
      (after (step (State.reset.withFetchWord 32 0x03000000))).responses = [⟨.ok, 0x00#8⟩] := by decide

/-- The text of lines of 95 L2.5 and L3 (R41). -/
theorem test_assemble_text :
    assembleText ['u', 'p', 'd', 'a', 't', 'e', ' ', '0', 'x', '3', '1'] = some [0x02000031#32] ∧
      assembleText ['s', 'e', 't', 'l', 'e', 'n', ' ', '9', ' ', ';', ' ', 'n'] = some [0x09000009#32] ∧
      assembleText ['c', 'r', 'c', ' ', '0', 'x', '4', '0', '0', '0', ',', ' ', '5'] =
        some [0x07004000#32, 0x08000000#32, 0x09000005#32, 0x03000000#32] ∧
      assembleText ['.', 'w', 'o', 'r', 'd', ' ', '0', 'x', '0', 'A', '0', '0', '0', '0', '0', '0'] = some [0x0A000000#32] ∧
      assembleText ['u', 'p', 'd', 'a', 't', 'e', ' ', '2', '5', '6'] = none ∧
      assembleText ['N', 'O', 'P'] = none ∧
      assembleProgram [['i', 'n', 'i', 't'], [';'], ['c', 'a', 'l', 'c']] = some [0x01000000#32, 0x03000000#32] := by decide

/-! ### Witnesses: states and operands that meet the hypotheses of the statements -/

theorem ok_demo : bufferOk demo := by unfold bufferOk; decide
theorem ok_demo2 : bufferOk demo2 := by unfold bufferOk; decide
theorem ok_top : bufferOk top := by unfold bufferOk; decide
theorem ok_empty : bufferOk empty := by unfold bufferOk; decide
theorem bad_crossing : ¬ bufferOk crossing := by unfold bufferOk; decide
theorem bad_unreadable : ¬ bufferOk unreadable := by unfold bufferOk; decide

/-- The state of this engine right after reset, with a move to take. -/
def fresh (ms : List HostMove) : State := { State.reset with inputs := ms }

theorem witness_EncodeOfDecodeIsTheWord : decode 0x020000FF#32 = .ok (.update 0xFF#8) := by decide
theorem witness_OpcodeMapRowsNeverOverlap :
    (∃ r ∈ opRows, 0x0900FFFF#32 &&& r.mask = r.matchWord) ∧ decode 0x0900FFFF#32 = .ok (.setlen 0xFFFF#16) ∧
      ∃ t, exec .calcCrc demo = .next t := by
  exact ⟨by decide, by decide, _, rfl⟩
theorem witness_EveryWordIsLegalOrIllegal :
    (present [0x0A000000#32] demo).inputs = .command 0x0A000000#32 :: [] ∧ demo.faulted = false ∧
      legal 0x0A000000#32 = false ∧ legal 0x03000000#32 = true ∧ faulted.faulted = true := by decide
theorem witness_OperandsAreTheWordsLowBits :
    decode 0x020000FF#32 = .ok (.update 0xFF#8) ∧ decode 0x06000080#32 = .ok (.rdtbl 0x80#8) ∧
      decode 0x0700BEEF#32 = .ok (.setaddrl 0xBEEF#16) ∧ decode 0x0800DEAD#32 = .ok (.setaddrh 0xDEAD#16) ∧
      decode 0x0900FFFF#32 = .ok (.setlen 0xFFFF#16) ∧ demo.faulted = false := by decide
theorem witness_StepRunsTheDecodedInstruction :
    (present [0x03000000#32] demo).inputs = .command 0x03000000#32 :: [] ∧ decode 0x03000000#32 = .ok .calcCrc := by decide
theorem witness_ResponseWordHasItsFields :
    (present [0x09000009#32] demo).inputs = .command 0x09000009#32 :: [] ∧
      (0x09000009#32 : Word).extractLsb' 24 8 = 0x09#8 := by decide
theorem witness_IdleEngineKeepsAllState : demo.inputs = [] := by decide
theorem witness_HostWriteChangesOneByte :
    Memory.wf demo.mem ∧
      ({ demo with inputs := [.write 0xFFFFFFFF#32 0x00#8] } : State).inputs = .write 0xFFFFFFFF#32 0x00#8 :: [] := by decide
theorem witness_IllegalWordChangesNothing :
    demo.faulted = false ∧
      (present [0xFFFFFFFF#32, 0x04000000#32] demo).inputs = .command 0xFFFFFFFF#32 :: .command 0x04000000#32 :: [] ∧
      legal 0xFFFFFFFF#32 = false ∧ decode 0x04000000#32 = .ok .rdacc := by decide
theorem witness_FaultedEngineAnswersFault :
    faulted.faulted = true ∧ (present [0x0A000000#32] faulted).inputs = .command 0x0A000000#32 :: [] ∧
      ∃ t, step { faulted with inputs := [.reset] } = .next t ∧ t.faulted = false := by
  exact ⟨by decide, by decide, _, rfl, rfl⟩
theorem witness_FaultedStateLastsUntilReset :
    faulted.faulted = true ∧
      ∀ m ∈ ({ faulted with inputs := [.command 0x01000000#32, .write 0x0#32 0x01#8, .reset] } : State).inputs.take 2,
        m ≠ .reset := by decide
theorem witness_OnlyAFailingCalcSetsFaulted :
    crossing.faulted = false ∧ ∃ t, step (present [0x03000000#32] crossing) = .next t ∧ t.faulted = true := by
  exact ⟨rfl, _, rfl, by decide⟩
theorem witness_ConditionsHaveTheirPriority :
    (present [0x03000000#32] crossing).inputs = .command 0x03000000#32 :: [] ∧ crossing.faulted = false ∧
      ¬ bufferOk (present [0x03000000#32] crossing) ∧ bufferOk (present [0x03000000#32] top) ∧
      legal 0x03000000#32 = true ∧ legal 0x00000001#32 = false ∧ faulted.faulted = true :=
  ⟨by decide, by decide, bad_crossing, ok_top, by decide, by decide, by decide⟩
theorem witness_NextCommandSeesAllEffects :
    (present [0x09000002#32, 0x03000000#32] demo).inputs = .command 0x09000002#32 :: .command 0x03000000#32 :: [] ∧
      decode 0x09000002#32 = .ok (.setlen 0x0002#16) ∧ decode 0x03000000#32 = .ok .calcCrc ∧
      ∃ t, exec (.setlen 0x0002#16) { present [0x09000002#32, 0x03000000#32] demo with inputs := [] } = .next t := by
  exact ⟨by decide, by decide, by decide, _, rfl⟩
theorem witness_BackToBackCommandsHaveNoHazard :
    demo.faulted = false ∧
      (present [encode (.update 0x31#8), encode (.update 0x32#8)] demo).inputs =
        .command (encode (.update 0x31#8)) :: .command (encode (.update 0x32#8)) :: [] ∧
      (present [encode (.setlen 0x0010#16), 0x03000000#32] demo).inputs =
        .command (encode (.setlen 0x0010#16)) :: .command 0x03000000#32 :: [] ∧
      bufferOk { demo with len := 0x0010#16 } := by
  exact ⟨by decide, by decide, by decide, by unfold bufferOk; decide⟩
theorem witness_ResetGivesTheResetValues : Hardwired (fresh [.reset]) ∧ (fresh [.reset]).inputs = .reset :: [] :=
  ⟨⟨rfl, rfl, rfl⟩, rfl⟩
theorem witness_CalcRightAfterResetAnswersZero :
    ({ faulted with inputs := [.reset, .command 0x03000000#32] } : State).inputs = .reset :: .command 0x03000000#32 :: [] := by
  decide
theorem witness_EveryStepKeepsTheInvariant :
    Inv (present [0x03000000#32] demo) ∧ ∃ t, step (present [0x03000000#32] demo) = .next t :=
  ⟨⟨by decide, by decide, by decide, by decide⟩, _, rfl⟩
theorem witness_Inv_of_a_faulted_engine_that_has_read : Inv { faulted with reads := [0x1000, 0x100F] } :=
  ⟨by decide, by decide, by decide, by decide⟩
theorem witness_HardwiredStateNeverChanges :
    Hardwired (fresh [.reset]) ∧ ∃ t, step (fresh [.reset]) = .next t := ⟨⟨rfl, rfl, rfl⟩, _, rfl⟩
theorem witness_OnlyTheNamedCommandsWrite :
    (after (step (present [0x01000000#32] demo))).acc ≠ demo.acc ∧
      (after (step (present [0x08000001#32] demo))).addr ≠ demo.addr ∧
      (after (step (present [0x09000000#32] demo))).len ≠ demo.len ∧
      (after (step (present [0x03000000#32] crossing))).faulted ≠ crossing.faulted ∧
      memByte (after (step { demo with inputs := [.write 0x0#32 0x01#8] })).mem 0 ≠ memByte demo.mem 0 ∧
      (after (step (present [0x03000000#32] demo))).reads ≠ demo.reads := by decide
theorem witness_commands_run_on_an_engine_not_faulted :
    demo.faulted = false ∧ demo.acc = 0x5A#8 ∧ ({ demo with acc := 0x00#8 } : State).acc = 0x00#8 ∧ State.reset.faulted = false := by
  decide
theorem witness_NopRespondsAndChangesNothing :
    (0x00000001#32 : Word).extractLsb' 24 8 = 0x00#8 ∧ (0x00000001#32 : Word).extractLsb' 0 24 ≠ 0#24 ∧
      demo.faulted = false ∧ faulted.faulted = true := by decide
theorem witness_InitZeroesTheAccumulator :
    (0x01000001#32 : Word).extractLsb' 24 8 = 0x01#8 ∧ (0x01000001#32 : Word).extractLsb' 0 24 ≠ 0#24 ∧
      State.reset.faulted = false ∧ State.reset.acc = 0x00#8 := by decide
theorem witness_UpdateFoldsOneByte :
    (0x02000100#32 : Word).extractLsb' 24 8 = 0x02#8 ∧ (0x02000100#32 : Word).extractLsb' 8 16 ≠ 0x0000#16 ∧
      State.reset.faulted = false ∧ State.reset.acc = 0x00#8 := by decide
theorem witness_CalcComputesTheCrcOfTheBuffer :
    (0x03000100#32 : Word).extractLsb' 24 8 = 0x03#8 ∧ (0x03000100#32 : Word).extractLsb' 0 24 ≠ 0#24 ∧
      (empty.faulted = false ∧ empty.len = 0x0000#16) ∧ (top.faulted = false ∧ top.len ≠ 0x0000#16 ∧ bufferOk top) ∧
      (crossing.faulted = false ∧ ¬ bufferOk crossing) :=
  ⟨by decide, by decide, by decide, ⟨by decide, by decide, ok_top⟩, by decide, bad_crossing⟩
theorem witness_CalcFaultEntersTheFaultedState : unreadable.faulted = false ∧ ¬ bufferOk unreadable :=
  ⟨by decide, bad_unreadable⟩
theorem witness_BufferMayEndAtTheTopButNotCrossIt :
    (crossing.faulted = false ∧ crossing.len ≠ 0x0000#16 ∧
      4294967296 < (crossing.addr.setWidth 33).toNat + (crossing.len.setWidth 33).toNat) ∧
      (top.faulted = false ∧ top.len ≠ 0x0000#16 ∧ top.addr.toNat + top.len.toNat = 4294967296 ∧
        ∀ k < top.len.toNat, readableIn top.readable (top.addr.toNat + k) = true) := by decide
theorem witness_OneUnreadableByteStopsTheWholeRead :
    unreadable.faulted = false ∧ 16 < unreadable.len.toNat ∧
      readableIn unreadable.readable (unreadable.addr.toNat + 16) = false := by decide
theorem witness_RdaccAnswersTheAccumulator :
    (0x04FF0000#32 : Word).extractLsb' 24 8 = 0x04#8 ∧ (0x04FF0000#32 : Word).extractLsb' 0 24 ≠ 0#24 ∧
      demo.faulted = false ∧ bufferOk demo := ⟨by decide, by decide, by decide, ok_demo⟩
theorem witness_RdpolyAnswersThePolynomial :
    (0x05000001#32 : Word).extractLsb' 24 8 = 0x05#8 ∧ (0x05000001#32 : Word).extractLsb' 0 24 ≠ 0#24 ∧
      Hardwired (fresh [.reset]) ∧ ∃ t, step (fresh [.reset]) = .next t ∧ t.faulted = false :=
  ⟨by decide, by decide, ⟨rfl, rfl, rfl⟩, _, rfl, rfl⟩
theorem witness_RdtblAnswersTheTableEntry :
    (0x06008000#32 : Word).extractLsb' 24 8 = 0x06#8 ∧ (0x06008000#32 : Word).extractLsb' 8 16 ≠ 0x0000#16 ∧
      State.reset.faulted = false ∧ State.reset.acc = 0x00#8 := by decide
theorem witness_Setaddrl_Setaddrh_Setlen_rules :
    (0x07010000#32 : Word).extractLsb' 24 8 = 0x07#8 ∧ (0x07010000#32 : Word).extractLsb' 16 8 ≠ 0x00#8 ∧
      (0x08010000#32 : Word).extractLsb' 24 8 = 0x08#8 ∧ (0x08010000#32 : Word).extractLsb' 16 8 ≠ 0x00#8 ∧
      (0x09FF0009#32 : Word).extractLsb' 24 8 = 0x09#8 ∧ (0x09FF0009#32 : Word).extractLsb' 16 8 ≠ 0x00#8 ∧
      demo.faulted = false := by decide
theorem witness_FrameOfReadingCommands :
    (∃ t, exec .nop demo = .next t) ∧ (∃ t, exec .rdacc demo = .next t) ∧ (∃ t, exec .rdpoly demo = .next t) ∧
      ∃ t, exec (.rdtbl 0xFF#8) demo = .next t := ⟨⟨_, rfl⟩, ⟨_, rfl⟩, ⟨_, rfl⟩, _, rfl⟩
theorem witness_FrameOfInitAndUpdate :
    (∃ t, exec .init demo = .next t) ∧ ∃ t, exec (.update 0xFF#8) demo = .next t := ⟨⟨_, rfl⟩, _, rfl⟩
theorem witness_FrameOfRegisterWrites :
    (∃ t, exec (.setaddrl 0xFFFF#16) demo = .next t) ∧ (∃ t, exec (.setaddrh 0xFFFF#16) demo = .next t) ∧
      ∃ t, exec (.setlen 0xFFFF#16) demo = .next t := ⟨⟨_, rfl⟩, ⟨_, rfl⟩, _, rfl⟩
theorem witness_FrameOfCalc :
    (∃ t, exec .calcCrc demo = .next t) ∧ (∃ t, exec .calcCrc crossing = .next t) ∧
      ∃ t, exec .calcCrc faulted = .next t := ⟨⟨_, rfl⟩, ⟨_, rfl⟩, _, rfl⟩
theorem witness_CalcTwiceGivesTheSameResult :
    demo.faulted = false ∧ ∃ t, exec .calcCrc demo = .next t ∧ t.faulted = false := ⟨rfl, _, rfl, by decide⟩
theorem witness_CalcDependsOnlyOnTheBuffer :
    let s₁ : State := { demo with len := 0x0002#16 }
    let s₂ : State := { demo with
      acc := 0x00#8, addr := 0xFFFFFFFE#32, len := 0x0002#16, readable := [⟨0xFFFFFFFE#32, 0xFFFFFFFF#32⟩],
      mem := [(0xFFFFFFFE, 0x31#8), (0xFFFFFFFF, 0x32#8)] }
    s₁.faulted = false ∧ s₂.faulted = false ∧ s₁.len = s₂.len ∧ s₁.poly = s₂.poly ∧ s₁.bitOrder = s₂.bitOrder ∧
      (s₁.addr.toNat + s₁.len.toNat ≤ 4294967296 ↔ s₂.addr.toNat + s₂.len.toNat ≤ 4294967296) ∧
      ∀ k < s₁.len.toNat,
        readableIn s₁.readable (s₁.addr.toNat + k) = readableIn s₂.readable (s₂.addr.toNat + k) ∧
        memByte s₁.mem (s₁.addr.toNat + k) = memByte s₂.mem (s₂.addr.toNat + k) := by decide
theorem witness_OnlyCalcShowsAddrAndLen : Instr.rdacc ≠ .calcCrc ∧ Instr.setlen 0xFFFF#16 ≠ .calcCrc := by decide
theorem witness_CalcSeesEarlierHostWrites :
    let ms : List HostMove := [.write 0x00001000#32 0x41#8, .command 0x09000001#32, .write 0x00001000#32 0x42#8]
    Memory.wf demo.mem ∧
      ({ demo with inputs := ms ++ [.command 0x03000000#32] } : State).inputs = ms ++ .command 0x03000000#32 :: [] ∧
      byteAfter ms 0x1000 0x31#8 = 0x42#8 ∧
      ∃ u, runFor 3 { demo with inputs := ms ++ [.command 0x03000000#32] } = .next u ∧ u.faulted = false ∧ bufferOk u :=
  ⟨by decide, by decide, by decide, _, rfl, by decide, by unfold bufferOk; decide⟩
theorem witness_EveryPlatformIsRepresented : readableIn top.readable 4294967295 = true := by decide
theorem witness_TableIsABijection : (0x07#8).getLsbD 0 = true ∧ (0x8C#8).getLsbD 7 = true := by decide
theorem witness_BufferMayBeSplitAnywhere :
    demo.faulted = false ∧
      bufferOk { demo with inputs := .command 0x03000000#32 :: [.command (encode (.update 0xF4#8))] } :=
  ⟨by decide, ok_demo⟩
theorem witness_IncrementalFoldEqualsCalc :
    (present [encode .init, encode (.update 0x31#8), encode (.update 0x32#8), encode .rdacc] demo2).inputs =
      .command (encode .init) :: ([0x31#8, 0x32#8].map fun d => .command (encode (.update d))) ++
        .command (encode .rdacc) :: [] ∧
      demo2.faulted = false ∧ bufferOk { demo2 with len := 0x0002#16 } ∧
      bufferBytes { demo2 with len := 0x0002#16 } = [0x31#8, 0x32#8] := by
  exact ⟨by decide, by decide, by unfold bufferOk; decide, by decide⟩
theorem witness_ZeroBytesLeaveTheAccumulatorZero :
    State.reset.faulted = false ∧ State.reset.acc = 0x00#8 ∧
      (present [0x02000000#32, 0x02000000#32] demo).inputs = List.replicate 2 (.command 0x02000000#32) ++ [] := by decide
theorem witness_OneChangedByteIsDetected :
    let s₂ : State := { demo with mem := memSet demo.mem 0x1001 0x33#8 }
    (0x32#8 ≠ 0x33#8) ∧ demo.faulted = false ∧ demo.poly.getLsbD 0 = true ∧ bufferOk demo ∧ bufferOk s₂ ∧
      bufferBytes demo = [0x31#8] ++ 0x32#8 :: [0x33#8, 0x34#8, 0x35#8, 0x36#8, 0x37#8, 0x38#8, 0x39#8] ∧
      bufferBytes s₂ = [0x31#8] ++ 0x33#8 :: [0x33#8, 0x34#8, 0x35#8, 0x36#8, 0x37#8, 0x38#8, 0x39#8] := by
  exact ⟨by decide, by decide, by decide, ok_demo, by unfold bufferOk; decide, by decide, by decide⟩
theorem witness_CrcPseudoInstructionIsCalcOverTheBuffer :
    demo.faulted = false ∧
      assemble (.crc 0x20000000 9) = some [0x07000000#32, 0x08002000#32, 0x09000009#32, 0x03000000#32] ∧
      (present [0x07000000#32, 0x08002000#32, 0x09000009#32, 0x03000000#32] demo).inputs =
        commands [0x07000000#32, 0x08002000#32, 0x09000009#32, 0x03000000#32] ++ [] := by decide

end Sys2Proof.Tests
end

section
/-! The proof that the list forms of `Readable` and of memory leave no platform out (00_scope.md R9; log 3, 4). -/

namespace Sys2Proof.Machine

/-! ### Readable -/

/-- The range that holds one address alone. -/
def onlyAddress (a : Addr) : Region := ⟨a, a⟩

/-- One-address ranges admit just the addresses they are made of. -/
theorem readableIn_map_onlyAddress_iff {as : List Addr} {a : Addr} :
    readableIn (as.map onlyAddress) a.toNat = true ↔ a ∈ as := by
  have hone (b : Addr) : b.toNat ≤ a.toNat ∧ a.toNat ≤ b.toNat ↔ b = a := by
    rw [← BitVec.toNat_inj]; omega
  simp [readableIn_iff, onlyAddress, hone]

/-- The address space is finite, so one range per admitted address is a list. -/
theorem exists_regions (f : Addr → Bool) : ∃ rs : List Region, ∀ a : Addr, readableIn rs a.toNat = f a := by
  have : Finite Addr := Finite.of_injective BitVec.toFin fun _ _ => BitVec.eq_of_toFin_eq
  refine ⟨(Set.toFinite {a | f a = true}).toFinset.toList.map onlyAddress, fun a => ?_⟩
  rw [Bool.eq_iff_iff, readableIn_map_onlyAddress_iff]
  simp

/-- Both ends of a range are 32-bit addresses, so nothing outside the space is readable. -/
theorem readableIn_lt_addrSpace {rs : List Region} {a : Nat} (h : readableIn rs a = true) : a < Config.addrSpace := by
  obtain ⟨r, -, -, hlast⟩ := readableIn_iff.1 h
  exact hlast.trans_lt r.last.isLt

/-! ### Memory -/

/-- The bytes of `f` below any bound `n`, put there by one host write per address. -/
theorem exists_memory_below (f : Nat → Byte) (n : Nat) (hn : n ≤ Config.addrSpace) :
    ∃ m : Memory, Memory.wf m ∧ ∀ k < n, memByte m k = f k := by
  induction n with
  | zero => exact ⟨[], ⟨.nil, by simp⟩, by simp⟩
  | succ n ih =>
    obtain ⟨m, hwf, hbelow⟩ := ih (by omega)
    refine ⟨memSet m n (f n), memSet_wf hwf (by omega) (f n), fun k hk => ?_⟩
    rcases Nat.lt_succ_iff_lt_or_eq.1 hk with hlt | rfl
    · rw [memByte_memSet_other hwf (f n) hlt.ne, hbelow k hlt]
    · exact memByte_memSet_same hwf k (f k)

/-- The bound at the whole space: every contents of memory has a canonical list. -/
theorem exists_memory (f : Addr → Byte) :
    ∃ m : Memory, Memory.wf m ∧ ∀ a : Addr, memByte m a.toNat = f a := by
  obtain ⟨m, hwf, hbyte⟩ := exists_memory_below (fun k => f (BitVec.ofNat 32 k)) Config.addrSpace le_rfl
  refine ⟨m, hwf, fun a => ?_⟩
  rw [hbyte a.toNat a.isLt, BitVec.ofNat_toNat, BitVec.setWidth_eq]

/-- Settles O46: `Readable` by one range per admitted address, memory by one host write per address. -/
theorem everyPlatformIsRepresented : Obligations.EveryPlatformIsRepresented :=
  ⟨exists_regions, fun _ _ => readableIn_lt_addrSpace, exists_memory⟩

end Sys2Proof.Machine
end

section
/-! What one move of the host can do, said once: each command's effect, and the three ways a step changes a field of the state. -/

namespace Sys2Proof.Machine

/-! ### The effect of a command -/

/-- What each command does on an engine that is not faulted (40_crc_compute.md R44 to R46; 41_register_access.md R48 to R54). -/
def commandEffect (i : Instr) (s : State) : State :=
  match i with
  | .nop => respond .ok 0x00#8 s
  | .init => respond .ok 0x00#8 (writeAcc 0x00#8 s)
  | .update b => updateEffect b s
  | .calcCrc => calcEffect s
  | .rdacc => respond .ok s.acc s
  | .rdpoly => respond .ok s.poly s
  | .rdtbl b => respond .ok (tableAt s b) s
  | .setaddrl h => respond .ok 0x00#8 (writeAddr (withLowHalf s.addr h) s)
  | .setaddrh h => respond .ok 0x00#8 (writeAddr (withHighHalf s.addr h) s)
  | .setlen h => respond .ok 0x00#8 (writeLen h s)

@[simp] theorem commandEffect_calcCrc (s : State) : commandEffect .calcCrc s = calcEffect s := rfl

theorem exec_eq_commandEffect (i : Instr) (s : State) : exec i s = .next (unlessFaulted s (commandEffect i s)) := by
  cases i <;> rfl

theorem exec_clear {s : State} (h : s.faulted = false) (i : Instr) : exec i s = .next (commandEffect i s) := by
  rw [exec_eq_commandEffect, unlessFaulted_clear h]

theorem step_command {s : State} {w : Word} {rest : List HostMove} {i : Instr} (hin : s.inputs = .command w :: rest)
    (hw : decode w = .ok i) : step s = exec i { s with inputs := rest } := by
  rw [step_move hin]
  exact commandStep_ok hw _

/-! ### What CALC leaves unchanged -/

/-- CALC keeps what its four operations keep: answering, writing ACC, reading the buffer and raising Fault. -/
theorem calcEffect_keeps {α : Type} (f : State → α) (hresp : ∀ st d s, f (respond st d s) = f s)
    (hacc : ∀ v s, f (writeAcc v s) = f s) (hreads : ∀ as s, f (readBuffer as s).2 = f s)
    (hfault : ∀ s, f (raise .fault s) = f s) (s : State) : f (calcEffect s) = f s := by
  obtain ⟨-, h⟩ | ⟨-, -, -, h⟩ | ⟨-, -, h⟩ := calcEffect_cases s
  · rw [h, hresp, hacc]
  · rw [h, calcRead, hresp, hacc, hreads]
  · rw [h, hfault]

@[simp] theorem calcEffect_addr (s : State) : (calcEffect s).addr = s.addr :=
  calcEffect_keeps State.addr (fun _ _ _ => rfl) (fun _ _ => rfl) (fun _ _ => rfl) (fun _ => rfl) s

@[simp] theorem calcEffect_len (s : State) : (calcEffect s).len = s.len :=
  calcEffect_keeps State.len (fun _ _ _ => rfl) (fun _ _ => rfl) (fun _ _ => rfl) (fun _ => rfl) s

@[simp] theorem calcEffect_mem (s : State) : (calcEffect s).mem = s.mem :=
  calcEffect_keeps State.mem (fun _ _ _ => rfl) (fun _ _ => rfl) (fun _ _ => rfl) (fun _ => rfl) s

/-! ### Which command changes which field -/

theorem commandEffect_acc_ne {i : Instr} {s : State} (h : (commandEffect i s).acc ≠ s.acc) :
    i = .init ∨ (∃ b, i = .update b) ∨ i = .calcCrc := by
  cases i <;> simp [commandEffect] at h ⊢

theorem commandEffect_addr_ne {i : Instr} {s : State} (h : (commandEffect i s).addr ≠ s.addr) :
    ∃ v, i = .setaddrl v ∨ i = .setaddrh v := by
  cases i <;> simp [commandEffect, updateEffect] at h ⊢

theorem commandEffect_len_ne {i : Instr} {s : State} (h : (commandEffect i s).len ≠ s.len) : ∃ v, i = .setlen v := by
  cases i <;> simp [commandEffect, updateEffect] at h ⊢

theorem commandEffect_faulted_ne {i : Instr} {s : State} (h : (commandEffect i s).faulted ≠ s.faulted) :
    i = .calcCrc := by
  cases i <;> simp [commandEffect, updateEffect] at h ⊢

theorem commandEffect_reads_ne {i : Instr} {s : State} (h : (commandEffect i s).reads ≠ s.reads) : i = .calcCrc := by
  cases i <;> simp [commandEffect, updateEffect] at h ⊢

/-- No command writes memory (20_memory.md R25). -/
@[simp] theorem commandEffect_mem (i : Instr) (s : State) : (commandEffect i s).mem = s.mem := by
  cases i <;> simp [commandEffect, updateEffect]

/-- The model's arguments: POLY, BIT_ORDER and Readable. -/
def parameters (s : State) : Byte × BitOrder × List Region := (s.poly, s.bitOrder, s.readable)

/-- No command writes an argument (30_encoding.md R39). -/
theorem commandEffect_parameters (i : Instr) (s : State) : parameters (commandEffect i s) = parameters s := by
  cases i with
  | calcCrc =>
    exact calcEffect_keeps parameters (fun _ _ _ => rfl) (fun _ _ => rfl) (fun _ _ => rfl) (fun _ => rfl) s
  | _ => rfl

/-! ### Which move changes which field -/

/-- R40's Step, line by line, with the condition of each line. -/
theorem commandStep_cases (w : Word) (s : State) :
    (s.faulted = true ∧ commandStep w s = .next (respond .fault 0x00#8 s)) ∨
    (s.faulted = false ∧ (∃ e, decode w = .error e) ∧ commandStep w s = .next (respond .illegal 0x00#8 s)) ∨
    (s.faulted = false ∧ ∃ i, decode w = .ok i ∧ commandStep w s = .next (commandEffect i s)) := by
  rcases Bool.eq_false_or_eq_true s.faulted with hf | hf
  · exact .inl ⟨hf, commandStep_faulted hf w⟩
  · cases hw : decode w with
    | error e => exact .inr (.inl ⟨hf, ⟨e, rfl⟩, commandStep_illegal hf hw⟩)
    | ok i => exact .inr (.inr ⟨hf, i, rfl, (commandStep_ok hw s).trans (exec_clear hf i)⟩)

/-- One step, taken apart by the host's move (10_state.md R21; 60_exceptions.md R61, R68). -/
inductive StepCase (s t : State) : Prop
  | idle (hin : s.inputs = []) (ht : t = s)
  | write (a : Addr) (b : Byte) (rest : List HostMove) (hin : s.inputs = .write a b :: rest)
      (ht : t = hostWrite a b { s with inputs := rest })
  | reset (rest : List HostMove) (hin : s.inputs = .reset :: rest) (ht : t = applyReset { s with inputs := rest })
  | faulted (w : Word) (rest : List HostMove) (hin : s.inputs = .command w :: rest) (hf : s.faulted = true)
      (ht : t = respond .fault 0x00#8 { s with inputs := rest })
  | illegal (w : Word) (rest : List HostMove) (hin : s.inputs = .command w :: rest) (hf : s.faulted = false)
      (hw : ∃ e, decode w = .error e) (ht : t = respond .illegal 0x00#8 { s with inputs := rest })
  | effect (w : Word) (rest : List HostMove) (i : Instr) (hin : s.inputs = .command w :: rest) (hf : s.faulted = false)
      (hw : decode w = .ok i) (ht : t = commandEffect i { s with inputs := rest })

/-- A next state is the one the move's equation names. -/
theorem next_unique {o : Outcome} {t u : State} (h : o = .next t) (h' : o = .next u) : t = u :=
  Host.Outcome.next.inj (h.symm.trans h')

theorem step_cases {s t : State} (h : step s = .next t) : StepCase s t := by
  match hin : s.inputs with
  | [] => exact .idle hin (next_unique h (step_idle hin))
  | .write a b :: rest => exact .write a b rest hin (next_unique h (step_move hin))
  | .reset :: rest => exact .reset rest hin (next_unique h (step_move hin))
  | .command w :: rest =>
    have hstep : step s = commandStep w { s with inputs := rest } := step_move hin
    obtain ⟨hf, hc⟩ | ⟨hf, hw, hc⟩ | ⟨hf, i, hw, hc⟩ := commandStep_cases w { s with inputs := rest }
    · exact .faulted w rest hin hf (next_unique h (hstep.trans hc))
    · exact .illegal w rest hin hf hw (next_unique h (hstep.trans hc))
    · exact .effect w rest i hin hf hw (next_unique h (hstep.trans hc))

/-- A field that neither the list of moves nor the responses are part of changes in one of three ways: by the host's write, by
reset, or by the effect of a command. -/
theorem step_changes {α : Type} (f : State → α) (hinputs : ∀ s ms, f { s with inputs := ms } = f s)
    (hresp : ∀ st d s, f (respond st d s) = f s) {s t : State} (h : step s = .next t) (hne : f t ≠ f s) :
    (∃ a b rest, s.inputs = .write a b :: rest ∧ f (hostWrite a b { s with inputs := rest }) ≠ f s) ∨
    (∃ rest, s.inputs = .reset :: rest ∧ f (applyReset { s with inputs := rest }) ≠ f s) ∨
    (∃ w rest i, s.inputs = .command w :: rest ∧ decode w = .ok i ∧
      f (commandEffect i { s with inputs := rest }) ≠ f s) := by
  cases step_cases h with
  | idle _ ht => exact absurd (congrArg f ht) hne
  | write a b rest hin ht => exact .inl ⟨a, b, rest, hin, ht ▸ hne⟩
  | reset rest hin ht => exact .inr (.inl ⟨rest, hin, ht ▸ hne⟩)
  | faulted w rest _ _ ht => exact absurd (by rw [ht, hresp, hinputs]) hne
  | illegal w rest _ _ _ ht => exact absurd (by rw [ht, hresp, hinputs]) hne
  | effect w rest i hin _ hw ht => exact .inr (.inr ⟨w, rest, i, hin, hw, ht ▸ hne⟩)

/-- The same for a register, which the host's write leaves alone. -/
theorem step_changes_register {α : Type} (f : State → α) (hinputs : ∀ s ms, f { s with inputs := ms } = f s)
    (hresp : ∀ st d s, f (respond st d s) = f s) (hwrite : ∀ a b s, f (hostWrite a b s) = f s) {s t : State}
    (h : step s = .next t) (hne : f t ≠ f s) :
    ∃ m rest, s.inputs = m :: rest ∧
      (m = .reset ∨ ∃ w i, m = .command w ∧ decode w = .ok i ∧ f (commandEffect i { s with inputs := rest }) ≠ f s) := by
  obtain ⟨a, b, rest, -, hf⟩ | ⟨rest, hin, -⟩ | ⟨w, rest, i, hin, hw, hf⟩ := step_changes f hinputs hresp h hne
  · exact absurd (by rw [hwrite, hinputs]) hf
  · exact ⟨_, rest, hin, .inl rfl⟩
  · exact ⟨_, rest, hin, .inr ⟨w, i, rfl, hw, hf⟩⟩

/-- No move writes an argument of the model. -/
theorem step_parameters {s t : State} (h : step s = .next t) : parameters t = parameters s := by
  by_contra hne
  obtain ⟨a, b, rest, -, hf⟩ | ⟨rest, -, hf⟩ | ⟨w, rest, i, -, -, hf⟩ :=
    step_changes parameters (fun _ _ => rfl) (fun _ _ _ => rfl) h hne
  · exact hf rfl
  · exact hf rfl
  · exact hf (commandEffect_parameters i _)

theorem parameters_eq_iff {s t : State} :
    parameters t = parameters s ↔ t.poly = s.poly ∧ t.bitOrder = s.bitOrder ∧ t.readable = s.readable := by
  simp [parameters]

end Sys2Proof.Machine
end

section
/-! Who writes the state (10_state.md R13 to R25). -/

namespace Sys2Proof.Machine

open Sys2Proof.Safety

/-! ### Each register, memory and the reads over one step -/

theorem step_acc_ne {s t : State} (h : step s = .next t) (hne : t.acc ≠ s.acc) :
    ∃ m rest, s.inputs = m :: rest ∧
      (m = .reset ∨ ∃ w, m = .command w ∧
        (decode w = .ok .init ∨ (∃ b, decode w = .ok (.update b)) ∨ decode w = .ok .calcCrc)) := by
  obtain ⟨m, rest, hin, hm | ⟨w, i, hm, hw, hf⟩⟩ :=
    step_changes_register State.acc (fun _ _ => rfl) (fun _ _ _ => rfl) (fun _ _ _ => rfl) h hne
  · exact ⟨m, rest, hin, .inl hm⟩
  · refine ⟨m, rest, hin, .inr ⟨w, hm, ?_⟩⟩
    obtain rfl | ⟨b, rfl⟩ | rfl := commandEffect_acc_ne hf
    · exact .inl hw
    · exact .inr (.inl ⟨b, hw⟩)
    · exact .inr (.inr hw)

theorem step_addr_ne {s t : State} (h : step s = .next t) (hne : t.addr ≠ s.addr) :
    ∃ m rest, s.inputs = m :: rest ∧
      (m = .reset ∨ ∃ w v, m = .command w ∧ (decode w = .ok (.setaddrl v) ∨ decode w = .ok (.setaddrh v))) := by
  obtain ⟨m, rest, hin, hm | ⟨w, i, hm, hw, hf⟩⟩ :=
    step_changes_register State.addr (fun _ _ => rfl) (fun _ _ _ => rfl) (fun _ _ _ => rfl) h hne
  · exact ⟨m, rest, hin, .inl hm⟩
  · obtain ⟨v, rfl | rfl⟩ := commandEffect_addr_ne hf
    · exact ⟨m, rest, hin, .inr ⟨w, v, hm, .inl hw⟩⟩
    · exact ⟨m, rest, hin, .inr ⟨w, v, hm, .inr hw⟩⟩

theorem step_len_ne {s t : State} (h : step s = .next t) (hne : t.len ≠ s.len) :
    ∃ m rest, s.inputs = m :: rest ∧ (m = .reset ∨ ∃ w v, m = .command w ∧ decode w = .ok (.setlen v)) := by
  obtain ⟨m, rest, hin, hm | ⟨w, i, hm, hw, hf⟩⟩ :=
    step_changes_register State.len (fun _ _ => rfl) (fun _ _ _ => rfl) (fun _ _ _ => rfl) h hne
  · exact ⟨m, rest, hin, .inl hm⟩
  · obtain ⟨v, rfl⟩ := commandEffect_len_ne hf
    exact ⟨m, rest, hin, .inr ⟨w, v, hm, hw⟩⟩

theorem step_faulted_ne {s t : State} (h : step s = .next t) (hne : t.faulted ≠ s.faulted) :
    ∃ m rest, s.inputs = m :: rest ∧ (m = .reset ∨ ∃ w, m = .command w ∧ decode w = .ok .calcCrc) := by
  obtain ⟨m, rest, hin, hm | ⟨w, i, hm, hw, hf⟩⟩ :=
    step_changes_register State.faulted (fun _ _ => rfl) (fun _ _ _ => rfl) (fun _ _ _ => rfl) h hne
  · exact ⟨m, rest, hin, .inl hm⟩
  · obtain rfl := commandEffect_faulted_ne hf
    exact ⟨m, rest, hin, .inr ⟨w, hm, hw⟩⟩

/-- Only the host writes memory (20_memory.md R25). -/
theorem step_mem_ne {s t : State} (h : step s = .next t) (hne : t.mem ≠ s.mem) :
    ∃ a b rest, s.inputs = .write a b :: rest := by
  obtain ⟨a, b, rest, hin, -⟩ | ⟨rest, -, hf⟩ | ⟨w, rest, i, -, -, hf⟩ :=
    step_changes State.mem (fun _ _ => rfl) (fun _ _ _ => rfl) h hne
  · exact ⟨a, b, rest, hin⟩
  · exact absurd rfl hf
  · exact absurd (commandEffect_mem i _) hf

/-- Only CALC reads memory (20_memory.md R25). -/
theorem step_reads_ne {s t : State} (h : step s = .next t) (hne : t.reads ≠ s.reads) :
    ∃ w rest, s.inputs = .command w :: rest ∧ decode w = .ok .calcCrc := by
  obtain ⟨a, b, rest, -, hf⟩ | ⟨rest, -, hf⟩ | ⟨w, rest, i, hin, hw, hf⟩ :=
    step_changes State.reads (fun _ _ => rfl) (fun _ _ _ => rfl) h hne
  · exact absurd rfl hf
  · exact absurd rfl hf
  · obtain rfl := commandEffect_reads_ne hf
    exact ⟨w, rest, hin, hw⟩

/-- Settles O24: the writers of each register, of memory and of the record of reads, one lemma each. -/
theorem onlyTheNamedCommandsWrite : Obligations.OnlyTheNamedCommandsWrite := by
  intro s t h
  refine ⟨step_acc_ne h, step_addr_ne h, step_len_ne h, step_faulted_ne h, ?_, step_reads_ne h⟩
  rintro ⟨k, hk⟩
  exact step_mem_ne h fun hm => hk (by rw [hm])

/-- Settles O23: the three arguments are kept by every step, and TABLE is computed from two of them. -/
theorem hardwiredStateNeverChanges : Obligations.HardwiredStateNeverChanges := by
  intro s t h
  obtain ⟨hp, ho, hr⟩ := parameters_eq_iff.1 (step_parameters h)
  exact ⟨hp, ho, hr, fun i => by rw [tableAt, tableAt, hp, ho],
    fun hs => ⟨hp.trans hs.poly, ho.trans hs.bitOrder, hr.trans hs.readable⟩⟩

/-- Settles O7: on a faulted engine both sides answer FAULT. -/
theorem stepRunsTheDecodedInstruction : Obligations.StepRunsTheDecodedInstruction :=
  fun _ _ _ _ => step_command

/-! ### ADDR and LEN are write-only -/

/-- No effect but CALC's shows ADDR or LEN in what it answers (10_state.md R20). -/
theorem commandEffect_ignores_addr_len {i : Instr} (hi : i ≠ .calcCrc) (s : State) (a : Addr) (n : Half) :
    (commandEffect i s).responses = (commandEffect i { s with addr := a, len := n }).responses ∧
    (commandEffect i s).acc = (commandEffect i { s with addr := a, len := n }).acc ∧
    (commandEffect i s).faulted = (commandEffect i { s with addr := a, len := n }).faulted ∧
    (commandEffect i s).reads = (commandEffect i { s with addr := a, len := n }).reads := by
  cases i with
  | calcCrc => exact absurd rfl hi
  | _ => simp [commandEffect, updateEffect, tableAt]

/-- Settles O44: a faulted engine answers FAULT whatever ADDR and LEN are; else no effect but CALC's shows them. -/
theorem onlyCalcShowsAddrAndLen : Obligations.OnlyCalcShowsAddrAndLen := by
  intro i s a n hi
  rcases Bool.eq_false_or_eq_true s.faulted with hf | hf
  · exact ⟨_, _, exec_faulted hf i, exec_faulted (s := { s with addr := a, len := n }) hf i, rfl, rfl, rfl, rfl⟩
  · exact ⟨_, _, exec_clear hf i, exec_clear (s := { s with addr := a, len := n }) hf i,
      commandEffect_ignores_addr_len hi s a n⟩

/-! ### Reset -/

/-- Settles O19: the reset state by definition, and the reset move by what it leaves of POLY and BIT_ORDER. -/
theorem resetGivesTheResetValues : Obligations.ResetGivesTheResetValues := by
  refine ⟨⟨rfl, rfl, rfl, rfl, rfl, fun _ => rfl⟩, fun s rest hs hin => ?_⟩
  refine ⟨applyReset { s with inputs := rest }, step_move hin, rfl, hs.poly, rfl, rfl, rfl, fun i => ?_⟩
  rw [tableAt, applyReset_bitOrder, applyReset_poly, hs.bitOrder, hs.poly]

/-- Settles O21: the reset state has no cell, no response and no read, and is not faulted. -/
theorem resetStateMeetsTheInvariant : Obligations.ResetStateMeetsTheInvariant where
  left :=
    { mem_wf := ⟨.nil, by simp [State.reset]⟩
      faulted_shows := by simp [State.reset]
      data_zero := by simp [State.reset]
      reads_admitted := by simp [State.reset] }
  right := ⟨rfl, rfl, rfl⟩

end Sys2Proof.Machine
end

section
/-! A word that decodes is the encoding of what it decodes to (30_encoding.md R36, R39): the fields each format accepts are those
its encoder writes. -/

namespace Sys2Proof

/-- The fields of R36 are the whole word. -/
theorem append_fields (w : Word) : (opcField w ++ rsvField w) ++ imm16Field w = w := by
  have hhigh : opcField w ++ rsvField w = w.extractLsb' 16 16 := BitVec.extractLsb'_append_extractLsb'_eq_extractLsb' rfl
  rw [hhigh]
  exact BitVec.extractLsb'_append_extractLsb' (w := 16) (len := 16)

theorem append_imm8Field (w : Word) : hiField w ++ imm8Field w = imm16Field w :=
  BitVec.extractLsb'_append_extractLsb'_eq_extractLsb' rfl

theorem encode_eq_of_fields {w : Word} {i : Instr} (hopc : (opcField w).toNat = i.opc.toNat) (hrsv : rsvField w = 0x00#8)
    (hop : imm16Field w = i.operand) : encode i = w := by
  rw [encode, ← BitVec.eq_of_toNat_eq hopc, ← hrsv, ← hop, append_fields]

theorem encode_of_decodeN {w : Word} {i j : Instr} (h : decodeN w i = .ok j) (hopc : (opcField w).toNat = i.opc.toNat)
    (hop : i.operand = 0x0000#16) : encode j = w := by
  unfold decodeN at h
  split_ifs at h with hrsv himm
  cases h
  exact encode_eq_of_fields hopc (not_not.1 hrsv) ((not_not.1 himm).trans hop.symm)

theorem encode_of_decodeB {w : Word} {mk : Byte → Instr} {j : Instr} (h : decodeB w mk = .ok j)
    (hopc : (opcField w).toNat = (mk (imm8Field w)).opc.toNat) (hop : ∀ b, (mk b).operand = 0x00#8 ++ b) : encode j = w := by
  unfold decodeB at h
  split_ifs at h with hrsv hhi
  cases h
  refine encode_eq_of_fields hopc (not_not.1 hrsv) ?_
  rw [hop, ← not_not.1 hhi, append_imm8Field]

theorem encode_of_decodeH {w : Word} {mk : Half → Instr} {j : Instr} (h : decodeH w mk = .ok j)
    (hopc : (opcField w).toNat = (mk (imm16Field w)).opc.toNat) (hop : ∀ v, (mk v).operand = v) : encode j = w := by
  unfold decodeH at h
  split_ifs at h with hrsv
  cases h
  exact encode_eq_of_fields hopc (not_not.1 hrsv) (hop _).symm

/-- The decoder accepts no word but the encoder's. -/
theorem encode_of_decode {w : Word} {i : Instr} (h : decode w = .ok i) : encode i = w := by
  unfold decode at h
  split at h
  case h_1 hopc => exact encode_of_decodeN h hopc rfl
  case h_2 hopc => exact encode_of_decodeN h hopc rfl
  case h_3 hopc => exact encode_of_decodeB h hopc fun _ => rfl
  case h_4 hopc => exact encode_of_decodeN h hopc rfl
  case h_5 hopc => exact encode_of_decodeN h hopc rfl
  case h_6 hopc => exact encode_of_decodeN h hopc rfl
  case h_7 hopc => exact encode_of_decodeB h hopc fun _ => rfl
  case h_8 hopc => exact encode_of_decodeH h hopc fun _ => rfl
  case h_9 hopc => exact encode_of_decodeH h hopc fun _ => rfl
  case h_10 hopc => exact encode_of_decodeH h hopc fun _ => rfl
  case h_11 => cases h

theorem decode_calcWord : decode 0x03000000#32 = .ok .calcCrc := by decide

theorem eq_calcWord_of_decode {w : Word} (h : decode w = .ok .calcCrc) : w = 0x03000000#32 :=
  (encode_of_decode h).symm.trans (by decide)

end Sys2Proof
end

section
/-! When CALC faults and what it leaves in ACC (40_crc_compute.md R46), and that nothing else sets FAULTED (10_state.md R19). -/

namespace Sys2Proof.Machine

open Sys2Proof.Safety

theorem bufferFits_eq_false_iff {a : Addr} {n : Half} : bufferFits a n = false ↔ 4294967296 < a.toNat + n.toNat := by
  rw [← Bool.not_eq_true, bufferFits_iff, not_le]
  rfl

theorem bufferReadable_eq_false_iff {rs : List Region} {a : Addr} {n : Half} :
    bufferReadable rs a n = false ↔ ∃ k < n.toNat, readableIn rs (a.toNat + k) = false := by
  simp [← Bool.not_eq_true, bufferReadable_iff]

/-- On an engine that is not faulted, CALC sets FAULTED exactly when the buffer is not empty and one of its two checks fails. -/
theorem calcEffect_faulted_iff {s : State} (hf : s.faulted = false) :
    (calcEffect s).faulted = true ↔
      s.len ≠ 0x0000#16 ∧
        (4294967296 < s.addr.toNat + s.len.toNat ∨
          ∃ k < s.len.toNat, readableIn s.readable (s.addr.toNat + k) = false) := by
  rw [← bufferFits_eq_false_iff, ← bufferReadable_eq_false_iff]
  obtain ⟨hlen, h⟩ | ⟨-, hfits, hread, h⟩ | ⟨hlen, hbad, h⟩ := calcEffect_cases s
  · simp [h, hlen, hf]
  · simp [h, calcRead, hfits, hread, hf]
  · simp [h, raise_fault, hlen, hbad]

/-- A CALC whose buffer may be read ends with the CRC of its bytes in ACC; the empty buffer's is 0x00 (R43, R46). -/
theorem calcEffect_acc_of_bufferOk {s : State} (hb : bufferOk s) :
    (calcEffect s).acc = calculate s.bitOrder s.poly (bufferBytes s) := by
  by_cases hlen : s.len = 0x0000#16
  · simp [calcEffect_empty hlen, bufferBytes, hlen, calculate]
  · obtain h | ⟨hfits, hread⟩ := (bufferOk_iff s).1 hb
    · exact absurd h hlen
    · rw [calcEffect_reads hlen hfits hread, calcRead, respond_acc, writeAcc_acc, readBuffer_bufferBytes]

/-- Settles O15: neither write nor reset sets FAULTED, of the commands only CALC does, and CALC's word is the one it decodes
from. -/
theorem onlyAFailingCalcSetsFaulted : Obligations.OnlyAFailingCalcSetsFaulted := by
  intro s t hf h
  constructor
  · intro ht
    obtain ⟨a, b, rest, -, hne⟩ | ⟨rest, -, hne⟩ | ⟨w, rest, i, hin, hw, hne⟩ :=
      step_changes State.faulted (fun _ _ => rfl) (fun _ _ _ => rfl) h (by simp [ht, hf])
    · exact absurd rfl hne
    · exact absurd hf.symm hne
    · obtain rfl := commandEffect_faulted_ne hne
      obtain rfl := eq_calcWord_of_decode hw
      refine ⟨rest, hin, ?_⟩
      exact (calcEffect_faulted_iff (s := { s with inputs := rest }) hf).1 (by simpa [hf] using hne)
  · rintro ⟨rest, hin, hbad⟩
    have hstep : step s = .next (calcEffect { s with inputs := rest }) :=
      (step_command hin decode_calcWord).trans (exec_clear (s := { s with inputs := rest }) hf .calcCrc)
    rw [next_unique h hstep]
    exact (calcEffect_faulted_iff (s := { s with inputs := rest }) hf).2 hbad

end Sys2Proof.Machine
end

section
/-! TABLE and the fold (10_state.md R14 to R16; 40_crc_compute.md R42, R43). An entry is the eighth iterate of one step of the
generator's loop, so what one step keeps (XOR, injectivity) the table keeps. -/

namespace Sys2Proof.Machine

open Sys2Proof.Safety

/-! ### The loop as an iterate -/

theorem crcShifts_eq_iterate (o : BitOrder) (p : Byte) (n : Nat) (c : Byte) : crcShifts o p n c = (crcShift o p)^[n] c := by
  induction n generalizing c with
  | zero => rfl
  | succ n ih => rw [crcShifts, ih, Function.iterate_succ_apply]

theorem tableGen_eq_iterate (o : BitOrder) (p : Byte) : tableGen o p = (crcShift o p)^[8] :=
  funext fun i => crcShifts_eq_iterate o p 8 i

/-- The spec's loop: eight rounds of the same step, whose counter is not used. -/
theorem tableGen_eq_foldl (o : BitOrder) (p i : Byte) :
    tableGen o p i = (List.range 8).foldl (fun c _ => crcShift o p c) i := by
  rw [List.foldl_const, List.length_range, tableGen_eq_iterate]

/-! ### One step in numbers -/

theorem shiftMsb_eq_double (p c : Byte) :
    shiftMsb p c =
      if 128 ≤ c.toNat then BitVec.ofNat 8 (c.toNat * 2) ^^^ p else BitVec.ofNat 8 (c.toNat * 2) := by
  have hbit : c.getLsbD 7 = true ↔ 128 ≤ c.toNat := by
    simpa [BitVec.msb_eq_getLsbD_last] using congrArg (· = true) (BitVec.msb_eq_decide c)
  have hshift : c <<< 1 = BitVec.ofNat 8 (c.toNat * 2) := by
    apply BitVec.eq_of_toNat_eq
    simp [Nat.shiftLeft_eq]
  simp only [shiftMsb, hbit, hshift]

theorem shiftLsb_eq_halve (p c : Byte) :
    shiftLsb p c =
      if c.toNat % 2 = 1 then BitVec.ofNat 8 (c.toNat / 2) ^^^ p else BitVec.ofNat 8 (c.toNat / 2) := by
  have hbit : c.getLsbD 0 = true ↔ c.toNat % 2 = 1 := by
    simp [BitVec.getLsbD]
  have hshift : c >>> 1 = BitVec.ofNat 8 (c.toNat / 2) := by
    apply BitVec.eq_of_toNat_eq
    have := c.isLt
    simp [Nat.shiftRight_eq_div_pow]
    omega
  simp only [shiftLsb, hbit, hshift]

/-- Settles O47: the loop is a fold over its counter, and each step doubles or halves. -/
theorem tableEntriesFollowTheLoops : Obligations.TableEntriesFollowTheLoops := by
  intro s i
  rw [tableAt, tableGen_eq_foldl]
  cases s.bitOrder with
  | msbFirst => simp only [crcShift, shiftMsb_eq_double]
  | lsbFirst => simp only [crcShift, shiftLsb_eq_halve]

/-- Settles O48: zero stays zero; from 0x01 (or 0x80) the set bit reaches the end in the eighth step, which leaves POLY alone. -/
theorem tableEntriesTheSpecDerives : Obligations.TableEntriesTheSpecDerives := by
  refine ⟨fun o p => crcShifts_zero o p 8, fun p => ?_, fun p => ?_⟩
  · simp [tableGen, crcShifts, crcShift, shiftMsb]
  · simp [tableGen, crcShifts, crcShift, shiftLsb]

/-! ### Linearity -/

/-- XORing `p` in under a condition is linear in the value and the condition. -/
theorem xor_feedback_xor (a b p : Byte) (u v : Bool) :
    (if (u ^^ v) = true then (a ^^^ b) ^^^ p else a ^^^ b) =
      (if u = true then a ^^^ p else a) ^^^ (if v = true then b ^^^ p else b) := by
  cases u <;> cases v
  · rfl
  · exact BitVec.xor_assoc a b p
  · simp only [Bool.xor_false, if_true, Bool.false_eq_true, if_false]
    ac_rfl
  · calc a ^^^ b = (a ^^^ b) ^^^ (p ^^^ p) := by rw [BitVec.xor_self, BitVec.xor_zero]
      _ = (a ^^^ p) ^^^ (b ^^^ p) := by ac_rfl

theorem crcShift_xor (o : BitOrder) (p x y : Byte) : crcShift o p (x ^^^ y) = crcShift o p x ^^^ crcShift o p y := by
  cases o with
  | msbFirst =>
    simp only [crcShift, shiftMsb, BitVec.getLsbD_xor, BitVec.shiftLeft_xor_distrib]
    exact xor_feedback_xor _ _ p _ _
  | lsbFirst =>
    simp only [crcShift, shiftLsb, BitVec.getLsbD_xor, BitVec.ushiftRight_xor_distrib]
    exact xor_feedback_xor _ _ p _ _

/-- Settles O50: each step of the loop is linear, and so are its iterates. -/
theorem tableIsLinearOverXor : Obligations.TableIsLinearOverXor := by
  intro o p x y
  rw [tableGen_eq_iterate]
  exact Function.Semiconj₂.iterate (op := (· ^^^ ·)) (crcShift_xor o p) 8 x y

/-! ### Injectivity -/

/-- The bit of POLY that the step XORs into the place the shift leaves empty. -/
def feedbackBit (o : BitOrder) (p : Byte) : Bool :=
  match o with
  | .msbFirst => p.getLsbD 0
  | .lsbFirst => p.getLsbD 7

/-- When the shift leaves bit `k` empty and `p` has it, the result tells whether `p` was XORed in, and so the shifted value. -/
theorem feedback_injective {a b p : Byte} {u v : Bool} {k : Nat} (hp : p.getLsbD k = true) (ha : a.getLsbD k = false)
    (hb : b.getLsbD k = false) (h : (if u = true then a ^^^ p else a) = if v = true then b ^^^ p else b) :
    u = v ∧ a = b := by
  have huv : u = v := by
    have hbit := congrArg (fun c : Byte => c.getLsbD k) h
    cases u <;> cases v <;> simp [hp, ha, hb] at hbit ⊢
  subst huv
  cases u with
  | false => exact ⟨rfl, h⟩
  | true => exact ⟨rfl, (BitVec.xor_left_inj p).1 h⟩

theorem shiftMsb_injective {p : Byte} (hp : p.getLsbD 0 = true) : Function.Injective (shiftMsb p) := by
  intro x y h
  obtain ⟨hout, hrest⟩ := feedback_injective hp (by simp) (by simp) h
  apply BitVec.eq_of_getLsbD_eq
  intro k hk
  rcases Nat.lt_succ_iff_lt_or_eq.1 hk with hlt | rfl
  · have hbit := congrArg (fun c : Byte => c.getLsbD (k + 1)) hrest
    simpa [show k + 1 < 8 by omega, -BitVec.getLsbD_eq_getElem] using hbit
  · exact hout

theorem shiftLsb_injective {p : Byte} (hp : p.getLsbD 7 = true) : Function.Injective (shiftLsb p) := by
  intro x y h
  obtain ⟨hout, hrest⟩ := feedback_injective hp (by simp) (by simp) h
  apply BitVec.eq_of_getLsbD_eq
  intro k hk
  cases k with
  | zero => exact hout
  | succ k =>
    have hbit := congrArg (fun c : Byte => c.getLsbD k) hrest
    simpa [Nat.add_comm] using hbit

theorem crcShift_injective {o : BitOrder} {p : Byte} (hp : feedbackBit o p = true) : Function.Injective (crcShift o p) := by
  cases o with
  | msbFirst => exact shiftMsb_injective hp
  | lsbFirst => exact shiftLsb_injective hp

theorem tableGen_injective {o : BitOrder} {p : Byte} (hp : feedbackBit o p = true) : Function.Injective (tableGen o p) := by
  rw [tableGen_eq_iterate]
  exact (crcShift_injective hp).iterate 8

/-- The entries 0x00 and 0x83 agree for POLY = 0x06, whose bit 0 is clear. -/
theorem tableGen_poly06_collision : tableGen .msbFirst 0x06#8 0x83#8 = tableGen .msbFirst 0x06#8 0x00#8 := by decide

/-- Settles O49: an injective map of the finite type of bytes is a bijection, and POLY = 0x06 has a collision. -/
theorem tableIsABijection : Obligations.TableIsABijection := by
  refine ⟨fun p hp => ?_, fun p hp => ?_, fun hinj => ?_⟩
  · exact Finite.injective_iff_bijective.1 (tableGen_injective (o := .msbFirst) hp)
  · exact Finite.injective_iff_bijective.1 (tableGen_injective (o := .lsbFirst) hp)
  · exact absurd (hinj tableGen_poly06_collision) (by decide)

/-! ### Error detection -/

section
variable {o : BitOrder} {p : Byte} (hp : feedbackBit o p = true)
include hp

theorem crcFold_left_injective (b : Byte) : Function.Injective fun acc => crcFold o p acc b :=
  fun _ _ h => (BitVec.xor_left_inj b).1 (tableGen_injective hp h)

theorem crcFold_right_injective (acc : Byte) : Function.Injective (crcFold o p acc) :=
  fun _ _ h => (BitVec.xor_right_inj acc).1 (tableGen_injective hp h)

theorem crcFoldList_injective (ds : List Byte) : Function.Injective fun acc => crcFoldList o p acc ds := by
  induction ds with
  | nil => exact fun _ _ h => h
  | cons d ds ih => exact ih.comp (crcFold_left_injective hp d)

/-- One changed byte changes the accumulator after it, and every later fold keeps the difference. -/
theorem calculate_ne_of_one_byte {x y : Byte} (hxy : x ≠ y) (pre post : List Byte) :
    calculate o p (pre ++ x :: post) ≠ calculate o p (pre ++ y :: post) := by
  simp only [calculate, crcFoldList_append, crcFoldList_cons]
  intro h
  exact hxy (crcFold_right_injective hp _ (crcFoldList_injective hp post h))

end

/-- Settles O58: both CALCs complete with the CRC of their buffers in ACC, and these CRCs differ. -/
theorem oneChangedByteIsDetected : Obligations.OneChangedByteIsDetected := by
  intro s₁ s₂ pre post x y hxy hf₁ hf₂ hpoly horder hbit hok₁ hok₂ hbytes₁ hbytes₂
  refine ⟨_, _, exec_clear hf₁ .calcCrc, exec_clear hf₂ .calcCrc, ?_⟩
  change (calcEffect s₁).acc ≠ (calcEffect s₂).acc
  rw [calcEffect_acc_of_bufferOk hok₁, calcEffect_acc_of_bufferOk hok₂, hbytes₁, hbytes₂, ← hpoly, ← horder]
  exact calculate_ne_of_one_byte hbit hxy pre post

end Sys2Proof.Machine
end

section
/-! CALC's two outcomes: a check that fails raises Fault before any read (20_memory.md R26, R30, R31), and a buffer that passes
both is read and folded (40_crc_compute.md R46). -/

namespace Sys2Proof.Machine

open Sys2Proof.Safety

/-! ### A check fails -/

theorem execCalc_fault_reads_nothing {s : State} (hf : s.faulted = false) (hlen : s.len ≠ 0x0000#16)
    (hbad : 4294967296 < s.addr.toNat + s.len.toNat ∨
      ∃ k < s.len.toNat, readableIn s.readable (s.addr.toNat + k) = false) :
    ∃ t, exec .calcCrc s = .next t ∧ t.faulted = true ∧ t.reads = s.reads ∧
      t.responses = s.responses ++ [⟨.fault, 0x00#8⟩] := by
  rw [← bufferFits_eq_false_iff, ← bufferReadable_eq_false_iff] at hbad
  refine ⟨raise .fault s, ?_, rfl, rfl, rfl⟩
  rw [exec_clear hf, commandEffect_calcCrc, calcEffect_faults hlen hbad]

/-- Settles O31: the unreadable byte fails CALC's second check, and a buffer that has a byte is not empty. -/
theorem oneUnreadableByteStopsTheWholeRead : Obligations.OneUnreadableByteStopsTheWholeRead := by
  intro s k hf hk hread
  have hlen : s.len ≠ 0x0000#16 := by
    intro h
    simp [h] at hk
  exact execCalc_fault_reads_nothing hf hlen (.inr ⟨k, hk, hread⟩)

/-! ### The buffer may be read -/

/-- Reading an empty buffer reads nothing and folds to 0x00, so R46's answer to LEN = 0 is no exception to its last loop. -/
theorem calcRead_empty {s : State} (h : s.len = 0x0000#16) : calcRead s = respond .ok 0x00#8 (writeAcc 0x00#8 s) := by
  have hnone : bufferAddrs s.addr s.len = [] := by simp [bufferAddrs, h]
  simp [calcRead, readBuffer, hnone, calculate]

theorem calcEffect_of_bufferOk {s : State} (hb : bufferOk s) : calcEffect s = calcRead s := by
  by_cases hlen : s.len = 0x0000#16
  · rw [calcEffect_empty hlen, calcRead_empty hlen]
  · obtain ⟨hfits, hread⟩ := ((bufferOk_iff s).1 hb).resolve_left hlen
    exact calcEffect_reads hlen hfits hread

@[simp] theorem calcRead_acc (s : State) : (calcRead s).acc = calculate s.bitOrder s.poly (bufferBytes s) := by
  rw [← readBuffer_bufferBytes]
  rfl

@[simp] theorem calcRead_faulted (s : State) : (calcRead s).faulted = s.faulted := rfl

@[simp] theorem calcRead_inputs (s : State) : (calcRead s).inputs = s.inputs := rfl

theorem calcRead_responses (s : State) : (calcRead s).responses = s.responses ++ [⟨.ok, (calcRead s).acc⟩] := rfl

theorem execCalc_of_bufferOk {s : State} (hf : s.faulted = false) (hb : bufferOk s) :
    exec .calcCrc s = .next (calcRead s) := by
  rw [exec_clear hf, commandEffect_calcCrc, calcEffect_of_bufferOk hb]

/-- Settles O30: a buffer across the top fails CALC's first check, and one that ends at the top passes it. -/
theorem bufferMayEndAtTheTopButNotCrossIt : Obligations.BufferMayEndAtTheTopButNotCrossIt := by
  constructor
  · intro s hf hlen hcross
    rw [BitVec.toNat_setWidth_of_le (by decide), BitVec.toNat_setWidth_of_le (by decide)] at hcross
    exact execCalc_fault_reads_nothing hf hlen (.inl hcross)
  · intro s hf _ htop hread
    exact ⟨calcRead s, execCalc_of_bufferOk hf (.inr ⟨htop.le, hread⟩), hf, calcRead_acc s, calcRead_responses s⟩

end Sys2Proof.Machine
end

section
/-! Runs over the host's moves (60_exceptions.md R68): each step takes one move, and memory follows the host's writes alone
(20_memory.md R25). -/

namespace Sys2Proof.Safety

open Sys2Proof.Machine

/-! ### One move -/

/-- What one move of the host does to memory: only a write changes it (20_memory.md R25). -/
def memAfterMove (m : HostMove) (mem : Memory) : Memory :=
  match m with
  | .write a b => memSet mem a.toNat b
  | .command _ => mem
  | .reset => mem

theorem memAfterMove_wf {mem : Memory} (h : Memory.wf mem) (m : HostMove) : Memory.wf (memAfterMove m mem) := by
  cases m with
  | write a b => exact memSet_wf h a.isLt b
  | command w => exact h
  | reset => exact h

/-- The byte after a list of moves is the byte after the rest of them, from memory as the first one leaves it. -/
theorem byteAfter_cons {mem : Memory} (h : Memory.wf mem) (m : HostMove) (ms : List HostMove) (k : Nat) :
    byteAfter (m :: ms) k (memByte mem k) = byteAfter ms k (memByte (memAfterMove m mem) k) := by
  cases m with
  | write a b => rw [memAfterMove, memByte_memSet h, byteAfter]
  | command w => rfl
  | reset => rfl

@[simp] theorem calcEffect_inputs (s : State) : (calcEffect s).inputs = s.inputs :=
  calcEffect_keeps State.inputs (fun _ _ _ => rfl) (fun _ _ => rfl) (fun _ _ => rfl) (fun _ => rfl) s

@[simp] theorem commandEffect_inputs (i : Instr) (s : State) : (commandEffect i s).inputs = s.inputs := by
  cases i <;> simp [commandEffect, updateEffect]

/-- A step takes the host's next move whole and always reaches a next state. -/
theorem step_takes_move {s : State} {m : HostMove} {rest : List HostMove} (hin : s.inputs = m :: rest) :
    ∃ t, step s = .next t ∧ t.inputs = rest ∧ t.mem = memAfterMove m s.mem := by
  rw [step_move hin]
  cases m with
  | write a b => exact ⟨_, rfl, rfl, rfl⟩
  | reset => exact ⟨_, rfl, rfl, rfl⟩
  | command w =>
    obtain ⟨-, h⟩ | ⟨-, -, h⟩ | ⟨-, i, -, h⟩ := commandStep_cases w { s with inputs := rest }
    · exact ⟨_, h, rfl, rfl⟩
    · exact ⟨_, h, rfl, rfl⟩
    · exact ⟨_, h, commandEffect_inputs i _, commandEffect_mem i _⟩

/-- No step faults or is refused (log 16). -/
theorem step_next (s : State) : ∃ t, step s = .next t := by
  match hin : s.inputs with
  | [] => exact ⟨s, step_idle hin⟩
  | m :: rest =>
    obtain ⟨t, ht, -, -⟩ := step_takes_move hin
    exact ⟨t, ht⟩

/-! ### Runs -/

/-- A run continues from the state its first part reaches. -/
theorem runFor_add {j k : Nat} {s u : State} (h : runFor j s = .next u) : runFor (j + k) s = runFor k u := by
  induction j generalizing s with
  | zero => rw [Nat.zero_add, next_unique h (runFor_zero s)]
  | succ j ih =>
    obtain ⟨t, ht⟩ := step_next s
    rw [runFor_succ ht] at h
    rw [Nat.add_right_comm, runFor_succ ht, ih h]

theorem runFor_add_one {k : Nat} {s u t : State} (h : runFor k s = .next u) (ht : step u = .next t) :
    runFor (k + 1) s = .next t := by
  rw [runFor_add h, runFor_succ ht, runFor_zero]

/-- A run over a list of moves takes them all, keeps the model's arguments, and leaves at each address the byte last written. -/
theorem runFor_takes_moves {s : State} {ms rest : List HostMove} (hwf : Memory.wf s.mem) (hin : s.inputs = ms ++ rest) :
    ∃ u, runFor ms.length s = .next u ∧ u.inputs = rest ∧ parameters u = parameters s ∧
      ∀ k, memByte u.mem k = byteAfter ms k (memByte s.mem k) := by
  induction ms generalizing s with
  | nil => exact ⟨s, runFor_zero s, hin, rfl, fun _ => rfl⟩
  | cons m ms ih =>
    obtain ⟨t, ht, htin, htmem⟩ := step_takes_move hin
    obtain ⟨u, hrun, huin, hpar, hbyte⟩ := ih (htmem ▸ memAfterMove_wf hwf m) htin
    refine ⟨u, (runFor_succ ht).trans hrun, huin, hpar.trans (step_parameters ht), fun k => ?_⟩
    rw [hbyte, htmem, byteAfter_cons hwf]

theorem step_calc_of_bufferOk {s : State} {rest : List HostMove} (hin : s.inputs = .command 0x03000000#32 :: rest)
    (hf : s.faulted = false) (hb : bufferOk s) : step s = .next (calcRead { s with inputs := rest }) :=
  (step_command hin decode_calcWord).trans (execCalc_of_bufferOk (s := { s with inputs := rest }) hf hb)

/-- Settles O45: the run over the moves leaves the written bytes in memory, and the CALC after it reads them. -/
theorem calcSeesEarlierHostWrites : Obligations.CalcSeesEarlierHostWrites := by
  intro s ms rest hwf hin
  obtain ⟨u, hrun, huin, hpar, hbyte⟩ := runFor_takes_moves hwf hin
  refine ⟨u, hrun, huin, hbyte, fun hf hb => ?_⟩
  refine ⟨_, runFor_add_one hrun (step_calc_of_bufferOk huin hf hb), rfl, hf, rfl, ?_⟩
  obtain ⟨hpoly, horder, -⟩ := parameters_eq_iff.1 hpar
  simp only [calcRead_acc, bufferBytes, hpoly, horder, hbyte]

end Sys2Proof.Safety
end

section
/-! Which words spell an instruction (30_encoding.md R36, R37, R39, R40): the encoder's words decode, and the rows of the opcode map
and the decoder accept the same fields. -/

namespace Sys2Proof

/-! ### The fields of an encoded word -/

theorem append_eq_append_iff {m n : Nat} {x x' : BitVec m} {y y' : BitVec n} :
    x ++ y = x' ++ y' ↔ x = x' ∧ y = y' := by
  constructor
  · intro h
    have hleft := congrArg (BitVec.extractLsb' n m) h
    have hright := congrArg (BitVec.extractLsb' 0 n) h
    rw [BitVec.extractLsb'_append_eq_left, BitVec.extractLsb'_append_eq_left] at hleft
    rw [BitVec.extractLsb'_append_eq_right, BitVec.extractLsb'_append_eq_right] at hright
    exact ⟨hleft, hright⟩
  · rintro ⟨rfl, rfl⟩
    rfl

@[simp] theorem opcField_encode (i : Instr) : opcField (encode i) = i.opc :=
  (Laws.EncodingFields.fields_of_layout _ _ _).1

@[simp] theorem rsvField_encode (i : Instr) : rsvField (encode i) = 0x00#8 :=
  (Laws.EncodingFields.fields_of_layout _ _ _).2.1

@[simp] theorem imm16Field_encode (i : Instr) : imm16Field (encode i) = i.operand :=
  (Laws.EncodingFields.fields_of_layout _ _ _).2.2

/-- The operand of format B is zero-extended (R36). -/
theorem hiField_imm8Field_of_operand {i : Instr} {b : Byte} (h : i.operand = 0x00#8 ++ b) :
    hiField (encode i) = 0x00#8 ∧ imm8Field (encode i) = b := by
  rw [← append_eq_append_iff, append_imm8Field, imm16Field_encode, h]

/-! ### Each format's decoder -/

theorem decodeN_eq_ok_iff {w : Word} {i j : Instr} :
    decodeN w i = .ok j ↔ rsvField w = 0x00#8 ∧ imm16Field w = 0x0000#16 ∧ i = j := by
  by_cases hr : rsvField w = 0x00#8 <;> by_cases ho : imm16Field w = 0x0000#16 <;> simp [decodeN, hr, ho]

theorem decodeB_eq_ok_iff {w : Word} {mk : Byte → Instr} {j : Instr} :
    decodeB w mk = .ok j ↔ rsvField w = 0x00#8 ∧ hiField w = 0x00#8 ∧ mk (imm8Field w) = j := by
  by_cases hr : rsvField w = 0x00#8 <;> by_cases ho : hiField w = 0x00#8 <;> simp [decodeB, hr, ho]

theorem decodeH_eq_ok_iff {w : Word} {mk : Half → Instr} {j : Instr} :
    decodeH w mk = .ok j ↔ rsvField w = 0x00#8 ∧ mk (imm16Field w) = j := by
  by_cases hr : rsvField w = 0x00#8 <;> simp [decodeH, hr]

theorem decodeN_encode {i : Instr} (h : i.operand = 0x0000#16) : decodeN (encode i) i = .ok i :=
  decodeN_eq_ok_iff.2 ⟨rsvField_encode i, (imm16Field_encode i).trans h, rfl⟩

theorem decodeB_encode {mk : Byte → Instr} {b : Byte} (h : (mk b).operand = 0x00#8 ++ b) :
    decodeB (encode (mk b)) mk = .ok (mk b) := by
  obtain ⟨hhi, himm⟩ := hiField_imm8Field_of_operand h
  exact decodeB_eq_ok_iff.2 ⟨rsvField_encode _, hhi, congrArg mk himm⟩

theorem decodeH_encode {mk : Half → Instr} {v : Half} (h : (mk v).operand = v) :
    decodeH (encode (mk v)) mk = .ok (mk v) :=
  decodeH_eq_ok_iff.2 ⟨rsvField_encode _, congrArg mk ((imm16Field_encode _).trans h)⟩

/-! ### Decode after encode -/

/-- The opcode selects the format's decoder, which accepts the encoder's fields. -/
@[simp] theorem decode_encode (i : Instr) : decode (encode i) = .ok i := by
  unfold decode
  rw [opcField_encode]
  cases i with
  | nop => exact decodeN_encode rfl
  | init => exact decodeN_encode rfl
  | update b => exact decodeB_encode rfl
  | calcCrc => exact decodeN_encode rfl
  | rdacc => exact decodeN_encode rfl
  | rdpoly => exact decodeN_encode rfl
  | rdtbl b => exact decodeB_encode rfl
  | setaddrl v => exact decodeH_encode rfl
  | setaddrh v => exact decodeH_encode rfl
  | setlen v => exact decodeH_encode rfl

theorem decode_eq_ok_iff {w : Word} {i : Instr} : decode w = .ok i ↔ encode i = w :=
  ⟨encode_of_decode, fun h => h ▸ decode_encode i⟩

/-- Settles O3: `encode_of_decode`. -/
theorem encodeOfDecodeIsTheWord : Obligations.EncodeOfDecodeIsTheWord :=
  fun _ _ => encode_of_decode

/-! ### The rows of the opcode map -/

/-- The operand bits a format requires to be zero (R36). -/
def Format.operandClear (f : Format) (w : Word) : Prop :=
  match f with
  | .n => imm16Field w = 0x0000#16
  | .b => hiField w = 0x00#8
  | .h => True

/-- The same bits as a mask of the low half. -/
def Format.operandMask : Format → Half
  | .n => 0xFF#8 ++ 0xFF#8
  | .b => 0xFF#8 ++ 0x00#8
  | .h => 0x00#8 ++ 0x00#8

theorem Format.and_operandMask_eq_zero_iff (f : Format) (w : Word) :
    imm16Field w &&& f.operandMask = 0x00#8 ++ 0x00#8 ↔ f.operandClear w := by
  have hall (x : Byte) : x &&& 0xFF#8 = x := BitVec.and_allOnes
  have hnone (x : Byte) : x &&& 0x00#8 = 0x00#8 := BitVec.and_zero
  rw [← append_imm8Field]
  cases f with
  | n => rw [operandMask, BitVec.and_append, hall, hall, append_imm8Field]; rfl
  | b => rw [operandMask, BitVec.and_append, hall, hnone, append_eq_append_iff]; exact and_iff_left rfl
  | h => rw [operandMask, BitVec.and_append, hnone, hnone]; exact iff_of_true rfl trivial

/-- Row `k` of the map has opcode `k`, RSV zero, and the mask of its format. -/
theorem opRows_layout :
    ∀ k : Fin opRows.length,
      opRows[k].matchWord = (BitVec.ofNat 8 k ++ 0x00#8) ++ (0x00#8 ++ 0x00#8) ∧
      opRows[k].mask = (0xFF#8 ++ 0xFF#8) ++ opRows[k].format.operandMask := by
  decide

/-- A word matches row `k` exactly when its opcode is `k`, RSV is zero and the operand bits the format forbids are zero. -/
theorem row_matches_iff (w : Word) (k : Fin opRows.length) :
    w &&& opRows[k].mask = opRows[k].matchWord ↔
      (opcField w).toNat = k ∧ rsvField w = 0x00#8 ∧ opRows[k].format.operandClear w := by
  have hall (x : Byte) : x &&& 0xFF#8 = x := BitVec.and_allOnes
  have hopc : opcField w = BitVec.ofNat 8 k ↔ (opcField w).toNat = k := by
    have hk : (k : Nat) < 10 := k.isLt
    rw [← BitVec.toNat_inj, BitVec.toNat_ofNat, Nat.mod_eq_of_lt (by omega)]
  obtain ⟨hmatch, hmask⟩ := opRows_layout k
  calc w &&& opRows[k].mask = opRows[k].matchWord
      ↔ ((opcField w ++ rsvField w) ++ imm16Field w) &&& ((0xFF#8 ++ 0xFF#8) ++ opRows[k].format.operandMask) =
          (BitVec.ofNat 8 k ++ 0x00#8) ++ (0x00#8 ++ 0x00#8) := by rw [hmatch, hmask, append_fields]
    _ ↔ _ := by
      rw [BitVec.and_append, BitVec.and_append, hall, hall, append_eq_append_iff, append_eq_append_iff, hopc,
        Format.and_operandMask_eq_zero_iff, and_assoc]

/-- A word of the fields R36 and R39 allow: RSV zero, an opcode of the map, and no operand bit its format forbids. -/
def FieldsLegal (w : Word) : Prop :=
  rsvField w = 0x00#8 ∧ ∃ r, opRows[(opcField w).toNat]? = some r ∧ r.format.operandClear w

theorem exists_row_iff (w : Word) : (∃ r ∈ opRows, w &&& r.mask = r.matchWord) ↔ FieldsLegal w := by
  constructor
  · rintro ⟨r, hr, hmatch⟩
    obtain ⟨k, rfl⟩ := List.mem_iff_get.1 hr
    obtain ⟨hopc, hrsv, hclear⟩ := (row_matches_iff w k).1 hmatch
    exact ⟨hrsv, opRows[k], by simp [hopc], hclear⟩
  · rintro ⟨hrsv, r, hr, hclear⟩
    obtain ⟨hlt, rfl⟩ := List.getElem?_eq_some_iff.1 hr
    exact ⟨_, List.getElem_mem hlt, (row_matches_iff w ⟨_, hlt⟩).2 ⟨rfl, hrsv, hclear⟩⟩

theorem legal_iff (w : Word) : legal w = true ↔ FieldsLegal w := by
  simp [legal, OpRow.spells, ← exists_row_iff]

/-- The decoder's arm for an opcode is the row at its place in the map. -/
theorem decodes_iff (w : Word) : (∃ i, decode w = .ok i) ↔ FieldsLegal w := by
  unfold decode FieldsLegal
  split
  case h_11 =>
    have hlen : opRows.length ≤ (opcField w).toNat := by
      change 10 ≤ _
      simp only [imp_false] at *
      omega
    simp [List.getElem?_eq_none hlen]
  all_goals
    next hopc => simp [hopc, opRows, Format.operandClear, decodeN_eq_ok_iff, decodeB_eq_ok_iff, decodeH_eq_ok_iff]

theorem legal_iff_decodes (w : Word) : legal w = true ↔ ∃ i, decode w = .ok i :=
  (legal_iff w).trans (decodes_iff w).symm

/-- Settles O2: `decode_encode`, and a word that decodes is legal. -/
theorem decodeOfEncodeIsTheInstruction : Obligations.DecodeOfEncodeIsTheInstruction :=
  fun i => ⟨decode_encode i, (legal_iff_decodes _).2 ⟨i, decode_encode i⟩⟩

theorem decode_of_illegal {w : Word} (h : legal w = false) : ∃ e, decode w = .error e := by
  cases hw : decode w with
  | error e => exact ⟨e, rfl⟩
  | ok i => simp [(legal_iff_decodes w).2 ⟨i, hw⟩] at h

/-- Settles O1: the twelve legal words are written out, and of the fourteen illegal ones none decodes since no row matches. -/
theorem wordsOfTheVectorTableDecode : Obligations.WordsOfTheVectorTableDecode := by
  refine ⟨by decide, fun w hw => ?_⟩
  have hillegal : legal w = false := by fin_cases hw <;> decide
  obtain ⟨e, he⟩ := decode_of_illegal hillegal
  exact ⟨hillegal, by rw [he]; rfl⟩

/-! ### The list of illegal words (R40) -/

/-- The opcodes of each format; an opcode below 0x0A has just one of the three formats. -/
theorem not_fieldsLegal_iff (w : Word) :
    ¬ FieldsLegal w ↔
      0x0A ≤ (opcField w).toNat ∨ rsvField w ≠ 0x00#8 ∨
        ((opcField w).toNat ∈ [0x00, 0x01, 0x03, 0x04, 0x05] ∧ imm16Field w ≠ 0x0000#16) ∨
        ((opcField w).toNat ∈ [0x02, 0x06] ∧ hiField w ≠ 0x00#8) := by
  unfold FieldsLegal
  generalize (opcField w).toNat = n
  by_cases hn : n < 10
  · interval_cases n <;> simp [opRows, Format.operandClear, imp_iff_not_or]
  · simp [List.getElem?_eq_none (l := opRows) (not_lt.1 hn), not_lt.1 hn]

theorem opcField_lt_of_decode {w : Word} {i : Instr} (h : decode w = .ok i) : (opcField w).toNat < 0x0A := by
  obtain ⟨-, r, hr, -⟩ := (decodes_iff w).1 ⟨i, h⟩
  exact (List.getElem?_eq_some_iff.1 hr).1

/-- Two rows a word matches both stand at the word's opcode. -/
theorem row_unique {w : Word} {r₁ r₂ : OpRow} (h₁ : r₁ ∈ opRows) (h₂ : r₂ ∈ opRows) (hw₁ : w &&& r₁.mask = r₁.matchWord)
    (hw₂ : w &&& r₂.mask = r₂.matchWord) : r₁ = r₂ := by
  obtain ⟨k₁, rfl⟩ := List.mem_iff_get.1 h₁
  obtain ⟨k₂, rfl⟩ := List.mem_iff_get.1 h₂
  have hk : k₁ = k₂ := Fin.ext (((row_matches_iff w k₁).1 hw₁).1.symm.trans ((row_matches_iff w k₂).1 hw₂).1)
  rw [hk]

end Sys2Proof

namespace Sys2Proof.Machine

/-! ### What a command word does -/

theorem exec_parameters {i : Instr} {s t : State} (h : exec i s = .next t) : parameters t = parameters s := by
  rcases Bool.eq_false_or_eq_true s.faulted with hf | hf
  · rw [next_unique h (exec_faulted hf i)]
    rfl
  · rw [next_unique h (exec_clear hf i)]
    exact commandEffect_parameters i s

theorem tableAt_eq_of_parameters {s t : State} (h : parameters t = parameters s) (k : Byte) : tableAt t k = tableAt s k := by
  obtain ⟨hpoly, horder, -⟩ := parameters_eq_iff.1 h
  rw [tableAt, tableAt, hpoly, horder]

/-- Settles O4: a row's place in the map is its opcode, and no command writes POLY or BIT_ORDER. -/
theorem opcodeMapRowsNeverOverlap : Obligations.OpcodeMapRowsNeverOverlap := by
  refine ⟨rfl, fun w => (decodes_iff w).trans (exists_row_iff w).symm, fun w r₁ h₁ r₂ h₂ => row_unique h₁ h₂,
    fun w i => opcField_lt_of_decode, fun i s t h => ?_⟩
  have hpar := exec_parameters h
  exact ⟨(parameters_eq_iff.1 hpar).1, tableAt_eq_of_parameters hpar⟩

/-- Settles O5: the rows and the list speak of the same fields, and R40's Step goes by the decoder. -/
theorem everyWordIsLegalOrIllegal : Obligations.EveryWordIsLegalOrIllegal := by
  refine ⟨fun w => ?_, legal_iff_decodes, fun s w rest hin => ⟨fun hf => ?_, fun hf hw => ?_, fun hf hw => ?_⟩⟩
  · rw [← Bool.not_eq_true, legal_iff]
    exact not_fieldsLegal_iff w
  · exact (step_move hin).trans (commandStep_faulted (s := { s with inputs := rest }) hf w)
  · obtain ⟨e, he⟩ := decode_of_illegal hw
    exact (step_move hin).trans (commandStep_illegal (s := { s with inputs := rest }) hf he)
  · obtain ⟨i, hi⟩ := (legal_iff_decodes w).1 hw
    exact ⟨i, hi, encode_of_decode hi, step_command hin hi⟩

/-! ### Operands (R37) -/

theorem imm8_of_decode {w : Word} {i : Instr} {b : Byte} (h : decode w = .ok i) (hop : i.operand = 0x00#8 ++ b) :
    b = imm8Field w := by
  rw [← encode_of_decode h]
  exact (hiField_imm8Field_of_operand hop).2.symm

theorem imm16_of_decode {w : Word} {i : Instr} (h : decode w = .ok i) : i.operand = imm16Field w := by
  rw [← encode_of_decode h, imm16Field_encode]

/-- SETADDRL then SETADDRH makes the address of the two halves, whatever ADDR was. -/
theorem withHighHalf_withLowHalf (a : Addr) (lo hi : Half) : withHighHalf (withLowHalf a lo) hi = hi ++ lo := by
  rw [withHighHalf, withLowHalf, BitVec.extractLsb'_append_eq_right]

theorem withLowHalf_withHighHalf (a : Addr) (lo hi : Half) : withLowHalf (withHighHalf a hi) lo = hi ++ lo := by
  rw [withHighHalf, withLowHalf, BitVec.extractLsb'_append_eq_left]

/-- Settles O6: a word that decodes has its instruction's operand in the low bits, and each half of ADDR survives the write of
the other. -/
theorem operandsAreTheWordsLowBits : Obligations.OperandsAreTheWordsLowBits := by
  refine ⟨fun w b => ?_, fun w h => ?_, fun s lo hi hf => ?_, fun s lo hi hf => ?_⟩
  · rintro (h | h) <;> exact imm8_of_decode h rfl
  · rintro (h | h | h) <;> exact imm16_of_decode h
  · exact ⟨_, _, exec_clear hf _, exec_clear (s := commandEffect (.setaddrl lo) s) hf _,
      withHighHalf_withLowHalf s.addr lo hi⟩
  · exact ⟨_, _, exec_clear hf _, exec_clear (s := commandEffect (.setaddrh hi) s) hf _,
      withLowHalf_withHighHalf s.addr lo hi⟩

end Sys2Proof.Machine
end

section
/-! Responses: every command gets exactly one (30_encoding.md R38), and its word has R38's fields. -/

namespace Sys2Proof.Machine

open Sys2Proof.Safety

/-! ### The response word -/

/-- R38's layout, with the six zeros written out. -/
theorem response_word_eq (r : Response) : r.word = ((0#6 ++ r.status.code) ++ r.data) := by
  rw [BitVec.append_assoc]
  exact BitVec.setWidth_eq_append (by decide)

theorem response_word_data (r : Response) : r.word.extractLsb' 0 8 = r.data := by
  rw [response_word_eq, BitVec.extractLsb'_append_eq_right]

theorem response_word_status (r : Response) : r.word.extractLsb' 8 2 = r.status.code := by
  rw [response_word_eq, BitVec.extractLsb'_append_eq_of_le (by decide), BitVec.extractLsb'_append_eq_right]

theorem response_word_zeros (r : Response) : r.word.extractLsb' 10 6 = 0#6 := by
  rw [response_word_eq, BitVec.extractLsb'_append_eq_of_le (by decide), BitVec.extractLsb'_append_eq_left]

/-- STATUS 0b11 is never returned (U14). -/
theorem status_code_ne (st : Status) : st.code ≠ 0b11#2 := by
  cases st <;> decide

/-! ### The one response of a command -/

/-- The opcodes of the commands without a result: NOP, INIT, SETADDRL, SETADDRH and SETLEN. -/
def noResultOpcodes : List Byte := [0x00#8, 0x01#8, 0x07#8, 0x08#8, 0x09#8]

/-- What R38 says of the DATA of a response to the word. -/
structure DataRule (w : Word) (r : Response) : Prop where
  notCompleted : r.status ≠ .ok → r.data = 0x00#8
  noResult : opcField w ∈ noResultOpcodes → r.data = 0x00#8

theorem DataRule.of_zero {w : Word} (st : Status) : DataRule w ⟨st, 0x00#8⟩ := ⟨fun _ => rfl, fun _ => rfl⟩

theorem DataRule.of_result {w : Word} (h : opcField w ∉ noResultOpcodes) (d : Byte) : DataRule w ⟨.ok, d⟩ :=
  ⟨fun hst => absurd rfl hst, fun hw => absurd hw h⟩

/-- A completed command with a result may answer any byte; every other answer is 0x00. -/
theorem commandEffect_response (i : Instr) (s : State) :
    ∃ r, (commandEffect i s).responses = s.responses ++ [r] ∧ DataRule (encode i) r := by
  have hresult (h : i.opc ∉ noResultOpcodes) (d : Byte) : DataRule (encode i) ⟨.ok, d⟩ :=
    .of_result (by rwa [opcField_encode]) d
  cases i with
  | nop => exact ⟨_, rfl, .of_zero _⟩
  | init => exact ⟨_, rfl, .of_zero _⟩
  | update b => exact ⟨_, rfl, hresult (by simp [Instr.opc, noResultOpcodes]) _⟩
  | calcCrc =>
    rw [commandEffect_calcCrc]
    obtain ⟨-, h⟩ | ⟨-, -, -, h⟩ | ⟨-, -, h⟩ := calcEffect_cases s
    · exact ⟨_, by rw [h]; rfl, .of_zero .ok⟩
    · exact ⟨_, by rw [h, calcRead_responses], hresult (by simp [Instr.opc, noResultOpcodes]) _⟩
    · exact ⟨_, by rw [h]; rfl, .of_zero .fault⟩
  | rdacc => exact ⟨_, rfl, hresult (by simp [Instr.opc, noResultOpcodes]) _⟩
  | rdpoly => exact ⟨_, rfl, hresult (by simp [Instr.opc, noResultOpcodes]) _⟩
  | rdtbl b => exact ⟨_, rfl, hresult (by simp [Instr.opc, noResultOpcodes]) _⟩
  | setaddrl v => exact ⟨_, rfl, .of_zero _⟩
  | setaddrh v => exact ⟨_, rfl, .of_zero _⟩
  | setlen v => exact ⟨_, rfl, .of_zero _⟩

theorem commandStep_response (w : Word) (s : State) :
    ∃ t r, commandStep w s = .next t ∧ t.inputs = s.inputs ∧ t.responses = s.responses ++ [r] ∧ DataRule w r := by
  obtain ⟨-, h⟩ | ⟨-, -, h⟩ | ⟨-, i, hw, h⟩ := commandStep_cases w s
  · exact ⟨_, _, h, rfl, rfl, .of_zero .fault⟩
  · exact ⟨_, _, h, rfl, rfl, .of_zero .illegal⟩
  · obtain ⟨r, hr, hdata⟩ := commandEffect_response i s
    exact ⟨_, r, h, commandEffect_inputs i s, hr, encode_of_decode hw ▸ hdata⟩

/-- Settles O9: the layout of the response word, and the DATA rule for each of R40's outcomes. -/
theorem responseWordHasItsFields : Obligations.ResponseWordHasItsFields := by
  intro s w rest hin
  obtain ⟨t, r, hstep, -, hresp, hdata⟩ := commandStep_response w { s with inputs := rest }
  refine ⟨t, r, (step_move hin).trans hstep, hresp, response_word_data r, (response_word_status r).trans rfl,
    ?_, response_word_zeros r, hdata.notCompleted, hdata.noResult⟩
  rw [response_word_status]
  exact status_code_ne r.status

/-! ### Every command is answered -/

/-- The number of responses a move gets. -/
theorem step_answers {s : State} {m : HostMove} {rest : List HostMove} (hin : s.inputs = m :: rest) :
    ∃ t, step s = .next t ∧ t.inputs = rest ∧
      ∃ rs, t.responses = s.responses ++ rs ∧ rs.length = [m].countP isCommand := by
  rw [step_move hin]
  cases m with
  | command w =>
    obtain ⟨t, r, hstep, hinputs, hresp, -⟩ := commandStep_response w { s with inputs := rest }
    exact ⟨t, hstep, hinputs, [r], hresp, rfl⟩
  | write a b => exact ⟨_, rfl, rfl, [], (List.append_nil _).symm, rfl⟩
  | reset => exact ⟨_, rfl, rfl, [], (List.append_nil _).symm, rfl⟩

/-- A run over all the moves to come answers each command among them. -/
theorem run_answers (s : State) :
    ∃ t, runFor s.inputs.length s = .next t ∧ t.inputs = [] ∧
      t.responses.length = s.responses.length + s.inputs.countP isCommand := by
  generalize hin : s.inputs = ms
  induction ms generalizing s with
  | nil => exact ⟨s, runFor_zero s, hin, rfl⟩
  | cons m ms ih =>
    obtain ⟨t, hstep, htin, rs, hresp, hrs⟩ := step_answers hin
    obtain ⟨u, hrun, huin, hcount⟩ := ih t htin
    refine ⟨u, (runFor_succ hstep).trans hrun, huin, ?_⟩
    rw [hcount, hresp, List.length_append, hrs, ← List.singleton_append (l := ms), List.countP_append, Nat.add_assoc]

/-- Settles O8: one step by the host's move, and the run by induction on the moves. -/
theorem everyCommandIsAnswered : Obligations.EveryCommandIsAnswered := by
  refine ⟨fun s => ?_, run_answers⟩
  match hin : s.inputs with
  | [] => exact ⟨s, step_idle hin, hin, [], (List.append_nil _).symm, rfl⟩
  | .command w :: rest => exact step_answers hin
  | .write a b :: rest => exact step_answers hin
  | .reset :: rest => exact step_answers hin

end Sys2Proof.Machine
end

section
/-! The assembler (30_encoding.md R41): an accepted line's words as bits, and what the words of `crc A, L` do. -/

namespace Sys2Proof.Machine

open Sys2Proof.Safety

/-! ### Words as numbers -/

/-- The opcode above the operand, with RSV zero between them (R36). -/
theorem encode_eq_ofNat (i : Instr) : encode i = BitVec.ofNat 32 (i.opc.toNat * 0x1000000 + i.operand.toNat) := by
  have hopc := i.opc.isLt
  have hoperand := i.operand.isLt
  apply BitVec.eq_of_toNat_eq
  rw [encode, BitVec.toNat_append, ← Nat.shiftLeft_add_eq_or_of_lt hoperand, BitVec.toNat_append, BitVec.toNat_ofNat,
    Nat.zero_mod, Nat.or_zero, Nat.shiftLeft_eq, Nat.shiftLeft_eq, BitVec.toNat_ofNat, Nat.mod_eq_of_lt] <;> omega

theorem encode_of_imm8 {i : Instr} {base n : Nat} (hbase : i.opc.toNat * 0x1000000 = base)
    (hop : i.operand = 0x00#8 ++ BitVec.ofNat 8 n) (hn : n ≤ 255) :
    encode i = BitVec.ofNat 32 (base + n) := by
  have himm : i.operand.toNat = n := by
    rw [hop, BitVec.toNat_append, BitVec.toNat_ofNat, BitVec.toNat_ofNat, Nat.zero_mod, Nat.zero_shiftLeft, Nat.zero_or]
    omega
  rw [encode_eq_ofNat, hbase, himm]

theorem encode_of_imm16 {i : Instr} {base n : Nat} (hbase : i.opc.toNat * 0x1000000 = base)
    (hop : i.operand = BitVec.ofNat 16 n) : encode i = BitVec.ofNat 32 (base + n % 65536) := by
  rw [encode_eq_ofNat, hbase, hop, BitVec.toNat_ofNat]

theorem setaddrWords_eq {a : Nat} (ha : a < 4294967296) :
    setaddrWords a = [BitVec.ofNat 32 (0x07000000 + a % 65536), BitVec.ofNat 32 (0x08000000 + a / 65536)] := by
  rw [setaddrWords, encode_of_imm16 (base := 0x07000000) (by simp [Instr.opc]) rfl,
    encode_of_imm16 (base := 0x08000000) (by simp [Instr.opc]) rfl, Nat.mod_eq_of_lt (a := a / 65536) (by omega)]

theorem crcWords_eq {a l : Nat} (ha : a < 4294967296) (hl : l ≤ 65535) :
    crcWords a l =
      [BitVec.ofNat 32 (0x07000000 + a % 65536), BitVec.ofNat 32 (0x08000000 + a / 65536),
        BitVec.ofNat 32 (0x09000000 + l), 0x03000000#32] := by
  rw [crcWords, setaddrWords_eq ha, encode_of_imm16 (base := 0x09000000) (by simp [Instr.opc]) rfl,
    Nat.mod_eq_of_lt (a := l) (by omega)]
  rfl

/-! ### Accepted and refused lines -/

theorem assemble_eq_ite {l : AsmLine} {p : Prop} [Decidable p] {ws : List Word} (hwf : l.wf = true ↔ p)
    (hws : p → asmWords l = ws) : assemble l = if p then some ws else none := by
  by_cases h : p
  · rw [assemble, if_pos (hwf.2 h), if_pos h, hws h]
  · rw [assemble, if_neg (mt hwf.1 h), if_neg h]

theorem fitsImm8_iff {n : Nat} : fitsImm8 n = true ↔ n ≤ 255 := by
  rw [fitsImm8, decide_eq_true_iff, Nat.lt_succ_iff]

theorem fitsImm16_iff {n : Nat} : fitsImm16 n = true ↔ n ≤ 65535 := by
  rw [fitsImm16, decide_eq_true_iff, Nat.lt_succ_iff]

theorem fitsWord_iff {n : Nat} : fitsWord n = true ↔ n < 4294967296 := decide_eq_true_iff

theorem crc_wf_iff {a l : Nat} : (AsmLine.crc a l).wf = true ↔ a < 4294967296 ∧ l ≤ 65535 := by
  rw [AsmLine.wf, Bool.and_eq_true, fitsWord_iff, fitsImm16_iff]

/-- A line of format B: the word of its instruction, or a refusal. -/
theorem assemble_imm8 {l : AsmLine} {i : Instr} {base n : Nat} (hwf : l.wf = fitsImm8 n) (hws : asmWords l = [encode i])
    (hbase : i.opc.toNat * 0x1000000 = base) (hop : i.operand = 0x00#8 ++ BitVec.ofNat 8 n) :
    assemble l = if n ≤ 255 then some [BitVec.ofNat 32 (base + n)] else none :=
  assemble_eq_ite (hwf ▸ fitsImm8_iff) fun hn => by rw [hws, encode_of_imm8 hbase hop hn]

/-- A line of format H: the word of its instruction, or a refusal. -/
theorem assemble_imm16 {l : AsmLine} {i : Instr} {base n : Nat} (hwf : l.wf = fitsImm16 n) (hws : asmWords l = [encode i])
    (hbase : i.opc.toNat * 0x1000000 = base) (hop : i.operand = BitVec.ofNat 16 n) :
    assemble l = if n ≤ 65535 then some [BitVec.ofNat 32 (base + n)] else none :=
  assemble_eq_ite (hwf ▸ fitsImm16_iff) fun hn => by
    rw [hws, encode_of_imm16 hbase hop, Nat.mod_eq_of_lt (Nat.lt_succ_of_le hn)]

/-- Settles O59: a lemma for each shape of line. -/
theorem assemblerEncodesOrRefuses : Obligations.AssemblerEncodesOrRefuses := by
  refine ⟨by decide, fun n => ?_, fun n => ?_, fun n => ?_, fun n => ?_, fun n => ?_, fun n => ?_, fun a => ?_, fun a l => ?_,
    fun d l => rfl⟩
  · exact assemble_imm8 (i := .update (BitVec.ofNat 8 n)) rfl rfl (by simp [Instr.opc]) rfl
  · exact assemble_imm8 (i := .rdtbl (BitVec.ofNat 8 n)) rfl rfl (by simp [Instr.opc]) rfl
  · exact assemble_imm16 (i := .setaddrl (BitVec.ofNat 16 n)) rfl rfl (by simp [Instr.opc]) rfl
  · exact assemble_imm16 (i := .setaddrh (BitVec.ofNat 16 n)) rfl rfl (by simp [Instr.opc]) rfl
  · exact assemble_imm16 (i := .setlen (BitVec.ofNat 16 n)) rfl rfl (by simp [Instr.opc]) rfl
  · exact assemble_eq_ite fitsWord_iff fun _ => rfl
  · exact assemble_eq_ite fitsWord_iff setaddrWords_eq
  · exact assemble_eq_ite crc_wf_iff fun ⟨ha, hl⟩ => crcWords_eq ha hl

/-! ### Running `crc A, L` -/

/-- An accepted `crc A, L` is its four commands. -/
theorem words_of_assemble_crc {a l : Nat} {ws : List Word} (h : assemble (.crc a l) = some ws) : ws = crcWords a l := by
  unfold assemble at h
  split_ifs at h
  exact (Option.some.inj h).symm

/-- The host presents an instruction's word to an engine that is not faulted. -/
theorem step_encode {s : State} {i : Instr} {rest : List HostMove} (hf : s.faulted = false)
    (hin : s.inputs = .command (encode i) :: rest) : step s = .next (commandEffect i { s with inputs := rest }) :=
  (step_command hin (decode_encode i)).trans (exec_clear (s := { s with inputs := rest }) hf i)

theorem runFor_encode {s : State} {i : Instr} {rest : List HostMove} {k : Nat} (hf : s.faulted = false)
    (hin : s.inputs = .command (encode i) :: rest) :
    runFor (k + 1) s = runFor k (commandEffect i { s with inputs := rest }) :=
  runFor_succ (step_encode hf hin)

theorem runFor_one (s : State) : runFor 1 s = step s := by
  obtain ⟨t, ht⟩ := step_next s
  rw [ht]
  exact runFor_succ (k := 0) ht

/-- The two halves of an address, as `setaddr` splits it, are the address. -/
theorem halves_append (a : Nat) : BitVec.ofNat 16 (a / 65536) ++ BitVec.ofNat 16 a = BitVec.ofNat 32 a := by
  apply BitVec.eq_of_toNat_eq
  rw [BitVec.toNat_append, ← Nat.shiftLeft_add_eq_or_of_lt (BitVec.isLt _), Nat.shiftLeft_eq, BitVec.toNat_ofNat,
    BitVec.toNat_ofNat, BitVec.toNat_ofNat]
  omega

/-- Settles O60: three register writes, each answered (OK, 0x00), and the step on CALC's word is CALC. -/
theorem crcPseudoInstructionIsCalcOverTheBuffer : Obligations.CrcPseudoInstructionIsCalcOverTheBuffer := by
  intro s a l ws rest hf hasm hin
  obtain rfl := words_of_assemble_crc hasm
  refine (runFor_encode hf hin).trans ?_
  refine (runFor_encode (by exact hf) (by rfl)).trans ?_
  refine (runFor_encode (by exact hf) (by rfl)).trans ?_
  refine (runFor_one _).trans ((step_command (by rfl) (decode_encode .calcCrc)).trans ?_)
  change exec .calcCrc { s with
    addr := withHighHalf (withLowHalf s.addr (BitVec.ofNat 16 a)) (BitVec.ofNat 16 (a / 65536))
    len := BitVec.ofNat 16 l
    inputs := rest
    responses := ((s.responses ++ [⟨.ok, 0x00#8⟩]) ++ [⟨.ok, 0x00#8⟩]) ++ [⟨.ok, 0x00#8⟩] } = _
  rw [withHighHalf_withLowHalf, halves_append, List.append_assoc, List.append_assoc]
  rfl

end Sys2Proof.Machine
end

section
/-! CALC and its buffer (40_crc_compute.md R46): everything `exec` can do for it, and what its answer depends on. -/

namespace Sys2Proof.Machine

open Sys2Proof.Safety

/-! ### Words that are illegal -/

theorem answeredIllegal_of_not_fieldsLegal {w : Word} (h : ¬ FieldsLegal w) : answeredIllegal w := by
  intro s rest hf hin
  obtain ⟨e, he⟩ := decode_of_illegal (Bool.eq_false_iff.2 fun hlegal => h ((legal_iff w).1 hlegal))
  exact (step_move hin).trans (commandStep_illegal (s := { s with inputs := rest }) hf he)

/-- RSV and the operand bits are the word below its opcode. -/
theorem rsvField_append_imm16Field (w : Word) : rsvField w ++ imm16Field w = w.extractLsb' 0 24 :=
  BitVec.extractLsb'_append_extractLsb'_eq_extractLsb' rfl

theorem rsvField_append_hiField (w : Word) : rsvField w ++ hiField w = w.extractLsb' 8 16 :=
  BitVec.extractLsb'_append_extractLsb'_eq_extractLsb' rfl

/-- A word of format N with a bit set below its opcode is illegal (R40). -/
theorem answeredIllegal_of_formatN {w : Word} (hopc : (opcField w).toNat ∈ [0x00, 0x01, 0x03, 0x04, 0x05])
    (hlow : w.extractLsb' 0 24 ≠ 0#24) : answeredIllegal w := by
  refine answeredIllegal_of_not_fieldsLegal ((not_fieldsLegal_iff w).2 (.inr ?_))
  by_cases hrsv : rsvField w = 0x00#8
  · refine .inr (.inl ⟨hopc, fun himm => hlow ?_⟩)
    rw [← rsvField_append_imm16Field, hrsv, himm]
    rfl
  · exact .inl hrsv

/-- A word of format B with a bit set between its opcode and IMM8 is illegal (R40). -/
theorem answeredIllegal_of_formatB {w : Word} (hopc : (opcField w).toNat ∈ [0x02, 0x06])
    (hmid : w.extractLsb' 8 16 ≠ 0x0000#16) : answeredIllegal w := by
  refine answeredIllegal_of_not_fieldsLegal ((not_fieldsLegal_iff w).2 (.inr ?_))
  by_cases hrsv : rsvField w = 0x00#8
  · refine .inr (.inr ⟨hopc, fun hhi => hmid ?_⟩)
    rw [← rsvField_append_hiField, hrsv, hhi]
    rfl
  · exact .inl hrsv

/-! ### Everything a command can do -/

theorem exec_cases {i : Instr} {s t : State} (h : exec i s = .next t) :
    (s.faulted = true ∧ t = answerFaulted s) ∨ (s.faulted = false ∧ t = commandEffect i s) := by
  rcases Bool.eq_false_or_eq_true s.faulted with hf | hf
  · exact .inl ⟨hf, next_unique h (exec_faulted hf i)⟩
  · exact .inr ⟨hf, next_unique h (exec_clear hf i)⟩

theorem calcEffect_of_not_bufferOk {s : State} (hb : ¬ bufferOk s) : calcEffect s = raise .fault s := by
  rw [bufferOk_iff] at hb
  obtain ⟨hlen, -⟩ | ⟨-, hfits, hread, -⟩ | ⟨-, -, h⟩ := calcEffect_cases s
  · exact absurd (.inl hlen) hb
  · exact absurd (.inr ⟨hfits, hread⟩) hb
  · exact h

theorem execCalc_of_not_bufferOk {s : State} (hf : s.faulted = false) (hb : ¬ bufferOk s) :
    exec .calcCrc s = .next (raise .fault s) := by
  rw [exec_clear hf, commandEffect_calcCrc, calcEffect_of_not_bufferOk hb]

/-- CALC answers for a faulted engine, reads and folds the buffer, or raises Fault. -/
theorem execCalc_cases {s t : State} (h : exec .calcCrc s = .next t) :
    (s.faulted = true ∧ t = answerFaulted s) ∨
    (s.faulted = false ∧ bufferOk s ∧ t = calcRead s) ∨
    (s.faulted = false ∧ ¬ bufferOk s ∧ t = raise .fault s) := by
  obtain ⟨hf, ht⟩ | ⟨hf, -⟩ := exec_cases h
  · exact .inl ⟨hf, ht⟩
  · by_cases hb : bufferOk s
    · exact .inr (.inl ⟨hf, hb, next_unique h (execCalc_of_bufferOk hf hb)⟩)
    · exact .inr (.inr ⟨hf, hb, next_unique h (execCalc_of_not_bufferOk hf hb)⟩)

/-! ### A completed CALC -/

/-- The whole state after the reading half of CALC. -/
theorem calcRead_eq (s : State) :
    calcRead s = { s with
      acc := calculate s.bitOrder s.poly (bufferBytes s)
      reads := s.reads ++ (List.range s.len.toNat).map (fun k => s.addr.toNat + k)
      responses := s.responses ++ [⟨.ok, calculate s.bitOrder s.poly (bufferBytes s)⟩] } := by
  rw [← readBuffer_bufferBytes, ← bufferAddrs_eq]
  rfl

/-- A completed CALC leaves ADDR, LEN and what they name as they were. -/
theorem bufferOk_calcRead (s : State) : bufferOk (calcRead s) ↔ bufferOk s := Iff.rfl

theorem calcRead_calcRead_acc (s : State) : (calcRead (calcRead s)).acc = (calcRead s).acc := by
  rw [calcRead_acc, calcRead_acc]
  rfl

/-- Settles O28: each clause is one of CALC's outcomes as a whole state; a second CALC finds the same buffer. -/
theorem calcComputesTheCrcOfTheBuffer : Obligations.CalcComputesTheCrcOfTheBuffer := by
  refine ⟨rfl, fun w hopc hlow => ?_, fun s hf hlen => ?_, fun s hf _ hb => ?_, fun s hf hb => ?_, fun s t i hf hb h => ?_,
    fun s t hf hb h => ?_⟩
  · exact answeredIllegal_of_formatN (by rw [opcField, hopc]; decide) hlow
  · rw [exec_clear hf, commandEffect_calcCrc, calcEffect_empty hlen]
    rfl
  · rw [execCalc_of_bufferOk hf hb, calcRead_eq]
  · exact ⟨_, _, execCalc_of_not_bufferOk hf hb⟩
  · obtain rfl := next_unique h (execCalc_of_not_bufferOk hf hb)
    exact exec_faulted rfl i
  · obtain rfl := next_unique h (execCalc_of_bufferOk hf hb)
    refine ⟨_, execCalc_of_bufferOk hf ((bufferOk_calcRead s).2 hb), calcRead_calcRead_acc s, ?_⟩
    rw [calcRead_responses, calcRead_calcRead_acc, calcRead_responses s, List.getLast?_concat, List.getLast?_concat]

/-- Settles O42: a CALC that leaves FAULTED clear is a completed one, and the second completes from the same buffer. -/
theorem calcTwiceGivesTheSameResult : Obligations.CalcTwiceGivesTheSameResult := by
  intro s t hf h ht
  obtain ⟨hset, -⟩ | ⟨-, hb, rfl⟩ | ⟨-, -, rfl⟩ := execCalc_cases h
  · simp [hf] at hset
  · refine ⟨_, ⟨.ok, (calcRead s).acc⟩, execCalc_of_bufferOk ht ((bufferOk_calcRead s).2 hb), calcRead_calcRead_acc s,
      hf, calcRead_responses s, ?_⟩
    rw [calcRead_responses, calcRead_calcRead_acc]
  · cases ht

/-! ### What the answer depends on -/

/-- Settles O43: both buffers may be read or neither, and they hold the same bytes. -/
theorem calcDependsOnlyOnTheBuffer : Obligations.CalcDependsOnlyOnTheBuffer := by
  intro s₁ s₂ hf₁ hf₂ hlen hpoly horder hfits hbuf
  have hok : bufferOk s₁ ↔ bufferOk s₂ := by
    refine or_congr (by rw [hlen]) (and_congr hfits ?_)
    rw [← hlen]
    exact forall₂_congr fun k hk => by rw [(hbuf k hk).1]
  have hbytes : bufferBytes s₁ = bufferBytes s₂ := by
    rw [bufferBytes, bufferBytes, ← hlen]
    exact List.map_congr_left fun k hk => (hbuf k (List.mem_range.1 hk)).2
  have hacc : (calcRead s₁).acc = (calcRead s₂).acc := by
    rw [calcRead_acc, calcRead_acc, hbytes, hpoly, horder]
  by_cases hb : bufferOk s₁
  · refine ⟨_, _, _, execCalc_of_bufferOk hf₁ hb, execCalc_of_bufferOk hf₂ (hok.1 hb), calcRead_responses s₁, ?_,
      hf₁.trans hf₂.symm, fun _ => hacc⟩
    rw [calcRead_responses, hacc]
  · exact ⟨_, _, ⟨.fault, 0x00#8⟩, execCalc_of_not_bufferOk hf₁ hb, execCalc_of_not_bufferOk hf₂ (mt hok.2 hb), rfl, rfl,
      rfl, fun h => by cases h⟩

/-! ### Frames -/

/-- Settles O41: each of CALC's three outcomes writes out what it changes. -/
theorem frameOfCalc : Obligations.FrameOfCalc := by
  intro s t h
  obtain ⟨hf, rfl⟩ | ⟨hf, -, rfl⟩ | ⟨hf, -, rfl⟩ := execCalc_cases h
  · exact ⟨rfl, rfl, rfl, rfl, rfl, rfl, fun _ => rfl, fun _ => rfl, fun _ => ⟨hf, rfl⟩, fun _ => rfl, fun _ => rfl⟩
  · exact ⟨rfl, rfl, rfl, rfl, rfl, rfl, fun _ => rfl, fun _ => rfl, fun hset => absurd hset (by simp [hf]), fun _ => rfl,
      fun hset => absurd hset (by simp [hf])⟩
  · exact ⟨rfl, rfl, rfl, rfl, rfl, rfl, fun _ => rfl, fun _ => rfl, fun hset => absurd hset (by simp [hf]),
      fun hclear => (by cases hclear), fun _ => rfl⟩

theorem exec_init_or_update_eq {i : Instr} {s t : State} (hi : i = .init ∨ ∃ b, i = .update b) (h : exec i s = .next t) :
    ∃ v rs, t = { s with acc := v, responses := rs } := by
  obtain ⟨-, rfl⟩ | ⟨-, rfl⟩ := exec_cases h
  · exact ⟨s.acc, _, rfl⟩
  · obtain rfl | ⟨b, rfl⟩ := hi
    · exact ⟨_, _, rfl⟩
    · exact ⟨_, _, rfl⟩

/-- Settles O39: `exec_init_or_update_eq` names the two fields that may change. -/
theorem frameOfInitAndUpdate : Obligations.FrameOfInitAndUpdate := by
  intro i s t hi h
  obtain ⟨v, rs, rfl⟩ := exec_init_or_update_eq hi h
  exact ⟨rfl, rfl, rfl, rfl, rfl, rfl, rfl, rfl, rfl, fun _ => rfl, fun _ => rfl⟩

end Sys2Proof.Machine
end

section
/-! INIT, UPDATE and the fold they run (40_crc_compute.md R42 to R45, R47). -/

namespace Sys2Proof.Machine

open Sys2Proof.Safety

/-! ### The fold -/

theorem tableGen_zero (o : BitOrder) (p : Byte) : tableGen o p 0x00#8 = 0x00#8 := crcShifts_zero o p 8

/-- A byte equal to the accumulator clears it. -/
@[simp] theorem crcFold_self (o : BitOrder) (p b : Byte) : crcFold o p b b = 0x00#8 := by
  rw [crcFold, BitVec.xor_self, tableGen_zero]

@[simp] theorem calculate_nil (o : BitOrder) (p : Byte) : calculate o p [] = 0x00#8 := rfl

theorem calculate_append (o : BitOrder) (p : Byte) (xs ys : List Byte) :
    calculate o p (xs ++ ys) = crcFoldList o p (calculate o p xs) ys :=
  crcFoldList_append o p _ xs ys

theorem calculate_concat (o : BitOrder) (p : Byte) (ds : List Byte) (d : Byte) :
    calculate o p (ds ++ [d]) = crcFold o p (calculate o p ds) d :=
  calculate_append o p ds [d]

/-- Settles O51: the last byte of a list is the last to be folded. -/
theorem calculateFoldsFromZero : Obligations.CalculateFoldsFromZero :=
  fun o p => ⟨calculate_nil o p, calculate_concat o p⟩

/-- Settles O57: the CRC itself, as the last byte, meets itself in the accumulator. -/
theorem bufferWithItsOwnCrcGivesZero : Obligations.BufferWithItsOwnCrcGivesZero := by
  intro o p ds
  rw [calculate_concat, crcFold_self]

/-! ### One command -/

theorem execInit_eq {s : State} (hf : s.faulted = false) :
    exec .init s = .next { s with acc := 0x00#8, responses := s.responses ++ [⟨.ok, 0x00#8⟩] } :=
  exec_clear hf .init

theorem execUpdate_eq {s : State} (hf : s.faulted = false) (b : Byte) :
    exec (.update b) s = .next { s with
      acc := tableAt s (s.acc ^^^ b)
      responses := s.responses ++ [⟨.ok, tableAt s (s.acc ^^^ b)⟩] } :=
  exec_clear hf (.update b)

/-- Settles O26: with ACC already 0x00, writing 0x00 to it changes nothing. -/
theorem initZeroesTheAccumulator : Obligations.InitZeroesTheAccumulator := by
  refine ⟨rfl, fun w hopc hlow => ?_, fun s hf => execInit_eq hf, fun s hf hacc => ?_⟩
  · exact answeredIllegal_of_formatN (by rw [opcField, hopc]; decide) hlow
  · rw [execInit_eq hf, ← hacc]

/-- Settles O27: the last two clauses are the cases `0x00 ^ b = b` and `acc ^ acc = 0x00`. -/
theorem updateFoldsOneByte : Obligations.UpdateFoldsOneByte := by
  refine ⟨fun b => ?_, fun w hopc hmid => ?_, fun s b hf => execUpdate_eq hf b, fun s b hf hacc => ?_, fun s hf => ?_⟩
  · rw [encode, Instr.opc, Instr.operand]
    exact (BitVec.append_assoc (x₁ := 0x02#8 ++ 0x00#8) (x₂ := 0x00#8) (x₃ := b)).symm
  · exact answeredIllegal_of_formatB (by rw [opcField, hopc]; decide) hmid
  · rw [execUpdate_eq hf, hacc, BitVec.zero_xor]
  · rw [execUpdate_eq hf, BitVec.xor_self, tableAt, tableGen_zero]

/-! ### A run of UPDATEs -/

/-- The host's moves that present an UPDATE per byte. -/
def updateMoves (ds : List Byte) : List HostMove := ds.map fun d => .command (encode (.update d))

/-- The answers to an UPDATE per byte: the accumulator after each. -/
def updateResponses (o : BitOrder) (p acc : Byte) : List Byte → List Response
  | [] => []
  | d :: ds => ⟨.ok, crcFold o p acc d⟩ :: updateResponses o p (crcFold o p acc d) ds

@[simp] theorem length_updateResponses (o : BitOrder) (p acc : Byte) (ds : List Byte) :
    (updateResponses o p acc ds).length = ds.length := by
  induction ds generalizing acc with
  | nil => rfl
  | cons d ds ih => rw [updateResponses, List.length_cons, ih, List.length_cons]

/-- The run over an UPDATE per byte folds the bytes into ACC and answers each. -/
theorem runFor_updates {s : State} {ds : List Byte} {rest : List HostMove} (hf : s.faulted = false)
    (hin : s.inputs = updateMoves ds ++ rest) :
    runFor ds.length s = .next { s with
      acc := crcFoldList s.bitOrder s.poly s.acc ds
      inputs := rest
      responses := s.responses ++ updateResponses s.bitOrder s.poly s.acc ds } := by
  induction ds generalizing s with
  | nil =>
    obtain rfl : s.inputs = rest := hin
    rw [updateResponses, List.append_nil]
    rfl
  | cons d ds ih =>
    rw [List.length_cons, runFor_encode hf hin, ih (by exact hf) rfl, updateResponses, List.append_cons]
    rfl

/-- Settles O52: the CALC leaves the CRC of its buffer in ACC, and the UPDATEs fold on from there. -/
theorem bufferMayBeSplitAnywhere : Obligations.BufferMayBeSplitAnywhere := by
  intro s y rest hf hb hin
  refine ⟨_, (runFor_succ (step_calc_of_bufferOk hin hf hb)).trans (runFor_updates (by exact hf) rfl), rfl, ?_⟩
  rw [calculate_append]
  change crcFoldList s.bitOrder s.poly (calcRead { s with inputs := updateMoves y ++ rest }).acc y = _
  rw [calcRead_acc]
  rfl

/-- Settles O53: INIT leaves 0x00 in ACC, the UPDATEs fold the bytes from there, and RDACC answers the result. -/
theorem incrementalFoldEqualsCalc : Obligations.IncrementalFoldEqualsCalc := by
  intro s ds rest hf hin
  have hrun := (runFor_encode (k := ds.length) hf hin).trans (runFor_updates (by exact hf) rfl)
  refine ⟨_, runFor_add_one hrun (step_encode (by exact hf) rfl), rfl, rfl, List.getLast?_concat, ?_, rfl, rfl, hf, rfl,
    rfl, fun c hcf hcpoly hcorder hcb hcbytes => ⟨calcRead c, execCalc_of_bufferOk hcf hcb, ?_, ?_⟩⟩
  · simp only [commandEffect, respond_responses, writeAcc_responses, List.length_append, length_updateResponses,
      List.length_singleton]
    omega
  · rw [calcRead_acc, hcbytes, hcpoly, hcorder]
    rfl
  · rw [calcRead_responses, calcRead_acc, hcbytes, hcpoly, hcorder, List.getLast?_concat]
    exact List.getLast?_concat.symm

/-! ### Zero bytes -/

theorem crcFoldList_zeros (o : BitOrder) (p : Byte) (n : Nat) :
    crcFoldList o p 0x00#8 (List.replicate n 0x00#8) = 0x00#8 := by
  induction n with
  | zero => rfl
  | succ n ih => rw [List.replicate_succ, crcFoldList_cons, crcFold_self, ih]

theorem updateResponses_zeros (o : BitOrder) (p : Byte) (n : Nat) :
    updateResponses o p 0x00#8 (List.replicate n 0x00#8) = List.replicate n ⟨.ok, 0x00#8⟩ := by
  induction n with
  | zero => rfl
  | succ n ih => rw [List.replicate_succ, updateResponses, crcFold_self, ih, List.replicate_succ]

/-- Settles O54: a zero byte on a zero accumulator is a byte equal to the accumulator. -/
theorem zeroBytesLeaveTheAccumulatorZero : Obligations.ZeroBytesLeaveTheAccumulatorZero := by
  intro n s rest hf hacc hin
  have hmoves : updateMoves (List.replicate n 0x00#8) = List.replicate n (.command 0x02000000#32) :=
    List.map_replicate
  have hrun := runFor_updates hf (hmoves ▸ hin)
  rw [List.length_replicate, hacc, crcFoldList_zeros, updateResponses_zeros] at hrun
  exact ⟨_, hrun, rfl, rfl, rfl⟩

end Sys2Proof.Machine
end

section
/-! The two independent readings of the CRC (40_crc_compute.md R47 item 2; 00_scope.md, Glossary): a bit-serial register, and the
remainder of a polynomial division. Both take the bits of a byte in the order of BIT_ORDER, so both BIT_ORDERs have one proof. -/

namespace Sys2Proof.Safety

open Sys2Proof.Machine

/-! ### A byte's coefficients -/

/-- The coefficient of x^k that the byte has in the direction of BIT_ORDER, as `polyOf` reads it. -/
def coeffBit (o : BitOrder) (b : Byte) (k : Nat) : Bool :=
  match o with
  | .msbFirst => b.getLsbD k
  | .lsbFirst => b.getLsbD (7 - k)

/-- The byte shifted by `n` places towards higher coefficients. -/
def shiftUp (o : BitOrder) (b : Byte) (n : Nat) : Byte :=
  match o with
  | .msbFirst => b <<< n
  | .lsbFirst => b >>> n

theorem polyOf_eq_sum (o : BitOrder) (b : Byte) :
    polyOf o b = ∑ k ∈ Finset.range 8, if coeffBit o b k = true then Polynomial.X ^ k else 0 := by
  cases o <;> rfl

theorem coeffBit_xor (o : BitOrder) (a b : Byte) (k : Nat) :
    coeffBit o (a ^^^ b) k = (coeffBit o a k ^^ coeffBit o b k) := by
  cases o <;> exact BitVec.getLsbD_xor

theorem coeffBit_shiftUp (o : BitOrder) (b : Byte) (n : Nat) {k : Nat} (hk : k < 8) :
    coeffBit o (shiftUp o b n) k = (decide (n ≤ k) && coeffBit o b (k - n)) := by
  cases o with
  | msbFirst =>
    simp only [coeffBit, shiftUp, BitVec.getLsbD_shiftLeft, hk, decide_true, Bool.true_and, ← decide_not,
      Nat.not_lt]
  | lsbFirst =>
    simp only [coeffBit, shiftUp, BitVec.getLsbD_ushiftRight]
    by_cases hn : n ≤ k
    · simp [hn, show n + (7 - k) = 7 - (k - n) by omega]
    · simp [hn, BitVec.getLsbD_of_ge b (n + (7 - k)) (by omega)]

theorem shiftUp_xor (o : BitOrder) (a b : Byte) (n : Nat) : shiftUp o (a ^^^ b) n = shiftUp o a n ^^^ shiftUp o b n := by
  cases o with
  | msbFirst => exact BitVec.shiftLeft_xor_distrib a b n
  | lsbFirst => exact BitVec.ushiftRight_xor_distrib a b n

theorem shiftUp_shiftUp (o : BitOrder) (b : Byte) (m n : Nat) : shiftUp o (shiftUp o b m) n = shiftUp o b (m + n) := by
  cases o with
  | msbFirst => exact (BitVec.shiftLeft_add b m n).symm
  | lsbFirst => exact (BitVec.shiftRight_add b m n).symm

@[simp] theorem shiftUp_zero (o : BitOrder) (b : Byte) : shiftUp o b 0 = b := by
  cases o with
  | msbFirst => exact BitVec.shiftLeft_zero b
  | lsbFirst => exact BitVec.ushiftRight_zero b

@[simp] theorem shiftUp_eight (o : BitOrder) (b : Byte) : shiftUp o b 8 = 0x00#8 := by
  cases o with
  | msbFirst => exact BitVec.shiftLeft_eq_zero le_rfl
  | lsbFirst => exact BitVec.ushiftRight_eq_zero le_rfl

/-- One step of the generator's loop: when the coefficient of x^7 is shifted out, XOR the polynomial in. -/
theorem crcShift_eq_ite (o : BitOrder) (p c : Byte) :
    crcShift o p c = if coeffBit o c 7 = true then shiftUp o c 1 ^^^ p else shiftUp o c 1 := by
  cases o <;> rfl

/-! ### The bit-serial register -/

theorem serialBit_eq_ite (o : BitOrder) (p c : Byte) (d : Bool) :
    serialBit o p c d = if (coeffBit o c 7 ^^ d) = true then shiftUp o c 1 ^^^ p else shiftUp o c 1 := by
  cases o <;> rfl

/-- The register takes the highest coefficient first: at each place, the one that `k` shifts have brought to x^7. -/
theorem serialBits_eq (o : BitOrder) (b : Byte) :
    serialBits o b = (List.range 8).map fun k => coeffBit o (shiftUp o b k) 7 := by
  have hplace {k : Nat} (hk : k ∈ List.range 8) : coeffBit o (shiftUp o b k) 7 = coeffBit o b (7 - k) := by
    have hlt := List.mem_range.1 hk
    rw [coeffBit_shiftUp o b k (by omega), decide_eq_true (by omega : k ≤ 7), Bool.true_and]
  rw [List.map_congr_left fun k => hplace]
  cases o with
  | msbFirst => rfl
  | lsbFirst => rfl

/-- XORing a byte in at once is XORing its highest coefficient in now and keeping the others for the next steps. -/
theorem crcShift_xor_eq_serialBit (o : BitOrder) (p c b : Byte) :
    crcShift o p (c ^^^ b) = serialBit o p c (coeffBit o b 7) ^^^ shiftUp o b 1 := by
  rw [crcShift_eq_ite, serialBit_eq_ite, coeffBit_xor, shiftUp_xor]
  split
  · ac_rfl
  · rfl

/-- After `n` steps the register has taken `n` bits of the byte, and the table's loop still holds the others. -/
theorem iterate_crcShift_xor (o : BitOrder) (p c b : Byte) (n : Nat) :
    (crcShift o p)^[n] (c ^^^ b) =
      ((List.range n).map fun k => coeffBit o (shiftUp o b k) 7).foldl (serialBit o p) c ^^^ shiftUp o b n := by
  induction n with
  | zero => simp
  | succ n ih =>
    rw [Function.iterate_succ_apply', ih, crcShift_xor_eq_serialBit, shiftUp_shiftUp, List.range_succ, List.map_append,
      List.foldl_append]
    rfl

theorem crcFold_eq_serial (o : BitOrder) (p c b : Byte) : crcFold o p c b = (serialBits o b).foldl (serialBit o p) c := by
  rw [crcFold, tableGen_eq_iterate, iterate_crcShift_xor, serialBits_eq, shiftUp_eight, BitVec.xor_zero]

/-- Settles O55: byte by byte, each by `crcFold_eq_serial`. -/
theorem tableFoldEqualsBitSerialCrc : Obligations.TableFoldEqualsBitSerialCrc := by
  intro o p acc ds
  induction ds generalizing acc with
  | nil => rfl
  | cons d ds ih => rw [crcFoldList_cons, ih, crcFold_eq_serial, serialCrc, serialCrc, List.flatMap_cons, List.foldl_append]

/-! ### Polynomials over GF(2) -/

open Polynomial

theorem polyOf_xor (o : BitOrder) (a b : Byte) : polyOf o (a ^^^ b) = polyOf o a + polyOf o b := by
  rw [polyOf_eq_sum, polyOf_eq_sum, polyOf_eq_sum, ← Finset.sum_add_distrib]
  refine Finset.sum_congr rfl fun k _ => ?_
  rw [coeffBit_xor]
  cases coeffBit o a k <;> cases coeffBit o b k <;> simp [CharTwo.add_self_eq_zero]

theorem polyOf_zero (o : BitOrder) : polyOf o 0x00#8 = 0 := by
  rw [← BitVec.xor_self (x := 0x00#8), polyOf_xor, CharTwo.add_self_eq_zero]

/-- A byte shifted up has no constant coefficient, and loses that of x^7. -/
theorem polyOf_shiftUp_one (o : BitOrder) (c : Byte) :
    polyOf o (shiftUp o c 1) = ∑ k ∈ Finset.range 7, if coeffBit o c k = true then X ^ (k + 1) else 0 := by
  have hlow : coeffBit o (shiftUp o c 1) 0 = false := coeffBit_shiftUp o c 1 (by decide)
  have hnext {k : Nat} (hk : k ∈ Finset.range 7) : coeffBit o (shiftUp o c 1) (k + 1) = coeffBit o c k := by
    have hlt := Finset.mem_range.1 hk
    rw [coeffBit_shiftUp o c 1 (by omega), decide_eq_true (by omega : 1 ≤ k + 1), Bool.true_and, Nat.add_sub_cancel]
  rw [polyOf_eq_sum, Finset.sum_range_succ', hlow, if_neg Bool.false_ne_true, add_zero]
  exact Finset.sum_congr rfl fun k hk => by rw [hnext hk]

/-- Multiplying by x shifts the coefficients up; the coefficient of x^7 leaves the byte. -/
theorem X_mul_polyOf (o : BitOrder) (c : Byte) :
    X * polyOf o c = polyOf o (shiftUp o c 1) + if coeffBit o c 7 = true then X ^ 8 else 0 := by
  rw [polyOf_shiftUp_one, polyOf_eq_sum, Finset.mul_sum, ← Finset.sum_range_succ _ 7]
  simp only [mul_ite, mul_zero, pow_succ']

/-- One step of the loop multiplies by x and takes the generator off when x^8 appears. -/
theorem X_mul_polyOf_eq_crcShift (o : BitOrder) (p c : Byte) :
    X * polyOf o c = polyOf o (crcShift o p c) + if coeffBit o c 7 = true then generator o p else 0 := by
  rw [X_mul_polyOf, crcShift_eq_ite]
  cases coeffBit o c 7
  · rfl
  · calc polyOf o (shiftUp o c 1) + X ^ 8
        = polyOf o (shiftUp o c 1) + X ^ 8 + (polyOf o p + polyOf o p) := by rw [CharTwo.add_self_eq_zero, add_zero]
      _ = polyOf o (shiftUp o c 1) + polyOf o p + (X ^ 8 + polyOf o p) := by ring
      _ = _ := by rw [← polyOf_xor]; rfl

/-! ### Arithmetic modulo the generator -/

theorem mk_crcShift (o : BitOrder) (p c : Byte) :
    AdjoinRoot.mk (generator o p) (polyOf o (crcShift o p c)) = AdjoinRoot.mk (generator o p) (X * polyOf o c) := by
  have hmultiple : AdjoinRoot.mk (generator o p) (if coeffBit o c 7 = true then generator o p else 0) = 0 := by
    split
    · exact AdjoinRoot.mk_self
    · exact map_zero _
  rw [X_mul_polyOf_eq_crcShift o p c, map_add, hmultiple, add_zero]

theorem mk_iterate_crcShift (o : BitOrder) (p c : Byte) (n : Nat) :
    AdjoinRoot.mk (generator o p) (polyOf o ((crcShift o p)^[n] c)) = AdjoinRoot.mk (generator o p) (polyOf o c * X ^ n) := by
  induction n with
  | zero => simp
  | succ n ih =>
    rw [Function.iterate_succ_apply', mk_crcShift, map_mul, ih, ← map_mul, mul_left_comm, ← pow_succ']

theorem mk_tableGen (o : BitOrder) (p i : Byte) :
    AdjoinRoot.mk (generator o p) (polyOf o (tableGen o p i)) = AdjoinRoot.mk (generator o p) (polyOf o i * X ^ 8) := by
  rw [tableGen_eq_iterate]
  exact mk_iterate_crcShift o p i 8

theorem messagePoly_concat (o : BitOrder) (ds : List Byte) (d : Byte) :
    messagePoly o (ds ++ [d]) = messagePoly o ds * X ^ 8 + polyOf o d := by
  rw [messagePoly, List.foldl_concat]
  rfl

/-- `Calculate` and the message times x^8 differ by a multiple of the generator. -/
theorem mk_calculate (o : BitOrder) (p : Byte) (ds : List Byte) :
    AdjoinRoot.mk (generator o p) (polyOf o (calculate o p ds)) =
      AdjoinRoot.mk (generator o p) (messagePoly o ds * X ^ 8) := by
  induction ds using List.reverseRecOn with
  | nil => rw [calculate_nil, polyOf_zero, messagePoly, List.foldl_nil, zero_mul]
  | append_singleton ds d ih =>
    rw [calculate_concat, crcFold, mk_tableGen, polyOf_xor, messagePoly_concat, map_mul, map_mul, map_add, map_add, ih]

/-! ### The remainder -/

theorem degree_polyOf_lt (o : BitOrder) (b : Byte) : (polyOf o b).degree < (8 : ℕ) := by
  rw [← mem_degreeLT, polyOf_eq_sum]
  refine Submodule.sum_mem _ fun k hk => ?_
  split
  · exact mem_degreeLT.2 (by rw [degree_X_pow]; exact_mod_cast Finset.mem_range.1 hk)
  · exact Submodule.zero_mem _

theorem generator_monic (o : BitOrder) (p : Byte) : (generator o p).Monic :=
  monic_X_pow_add (degree_polyOf_lt o p)

theorem degree_generator (o : BitOrder) (p : Byte) : (generator o p).degree = (8 : ℕ) := by
  rw [generator, degree_add_eq_left_of_degree_lt (by rw [degree_X_pow]; exact degree_polyOf_lt o p), degree_X_pow]

/-- Settles O56: a byte's polynomial is its own remainder, and `mk_calculate` says which remainder that is. -/
theorem calculateIsThePolynomialRemainder : Obligations.CalculateIsThePolynomialRemainder := by
  intro o p ds
  have hmonic := generator_monic o p
  calc polyOf o (calculate o p ds)
      = polyOf o (calculate o p ds) %ₘ generator o p :=
        ((modByMonic_eq_self_iff hmonic).2 (by rw [degree_generator]; exact degree_polyOf_lt o _)).symm
    _ = (messagePoly o ds * X ^ 8) %ₘ generator o p :=
        modByMonic_eq_of_dvd_sub hmonic (AdjoinRoot.mk_eq_mk.1 (mk_calculate o p ds))

end Sys2Proof.Safety
end

section
/-! The register access and control commands: NOP, RDACC, RDPOLY, RDTBL, SETADDRL, SETADDRH and SETLEN
(41_register_access.md R48 to R54). -/

namespace Sys2Proof.Machine

open Sys2Proof.Safety

/-! ### Words -/

/-- RSV is zero in every format (R36), so a word with a bit set there is illegal whatever its opcode. -/
theorem answeredIllegal_of_rsvField_ne {w : Word} (hrsv : rsvField w ≠ 0x00#8) : answeredIllegal w :=
  answeredIllegal_of_not_fieldsLegal ((not_fieldsLegal_iff w).2 (.inr (.inl hrsv)))

/-- The word of an instruction with a byte operand: three bytes that do not depend on it, and the byte. -/
theorem encode_eq_append_imm8 {i : Instr} {o b : Byte} {high : BitVec 24} (hopc : i.opc = o)
    (hop : i.operand = 0x00#8 ++ b) (hhigh : (o ++ 0x00#8) ++ 0x00#8 = high) : encode i = high ++ b := by
  rw [encode, hopc, hop, ← hhigh]
  exact (BitVec.append_assoc (x₁ := o ++ 0x00#8) (x₂ := 0x00#8) (x₃ := b)).symm

/-- The word of an instruction with a halfword operand: two bytes that do not depend on it, and the halfword. -/
theorem encode_eq_append_imm16 {i : Instr} {o : Byte} {h high : Half} (hopc : i.opc = o) (hop : i.operand = h)
    (hhigh : o ++ 0x00#8 = high) : encode i = high ++ h := by
  rw [encode, hopc, hop, hhigh]

/-! ### NOP and the commands that read -/

/-- NOP, RDACC, RDPOLY and RDTBL can change nothing but the responses, on a faulted engine too. -/
theorem exec_reading_eq {i : Instr} {s t : State} (hi : i = .nop ∨ i = .rdacc ∨ i = .rdpoly ∨ ∃ b, i = .rdtbl b)
    (h : exec i s = .next t) : ∃ rs, t = { s with responses := rs } := by
  obtain ⟨-, rfl⟩ | ⟨-, rfl⟩ := exec_cases h
  · exact ⟨_, rfl⟩
  · obtain rfl | rfl | rfl | ⟨b, rfl⟩ := hi
    · exact ⟨_, rfl⟩
    · exact ⟨_, rfl⟩
    · exact ⟨_, rfl⟩
    · exact ⟨_, rfl⟩

/-- Settles O38: `exec_reading_eq` names the one field that may change. -/
theorem frameOfReadingCommands : Obligations.FrameOfReadingCommands := by
  intro i s t hi h
  obtain ⟨rs, rfl⟩ := exec_reading_eq hi h
  exact ⟨rfl, rfl, rfl, rfl, rfl, rfl, rfl, rfl, rfl, rfl, fun _ => rfl, fun _ => rfl⟩

/-- Settles O25: NOP's effect is its response, and a faulted engine answers FAULT in its place. -/
theorem nopRespondsAndChangesNothing : Obligations.NopRespondsAndChangesNothing := by
  refine ⟨rfl, fun w hopc hlow => ?_, fun s hf => exec_clear hf .nop, fun s hf => exec_faulted hf .nop⟩
  exact answeredIllegal_of_formatN (by rw [opcField, hopc]; decide) hlow

/-- Settles O32: the reset state and a completed CALC are states that are not faulted, and CALC's response carries the ACC it
leaves. -/
theorem rdaccAnswersTheAccumulator : Obligations.RdaccAnswersTheAccumulator := by
  refine ⟨rfl, fun w hopc hlow => ?_, fun s hf => exec_clear hf .rdacc, ⟨_, exec_clear rfl .rdacc, rfl⟩,
    fun s hf hb => ?_⟩
  · exact answeredIllegal_of_formatN (by rw [opcField, hopc]; decide) hlow
  · exact ⟨calcRead s, _, ⟨.ok, (calcRead s).acc⟩, execCalc_of_bufferOk hf hb, calcRead_responses s,
      exec_clear (s := calcRead s) hf .rdacc, rfl⟩

/-- Settles O33: every move keeps the state one of this engine, whose POLY is POLY_VALUE. -/
theorem rdpolyAnswersThePolynomial : Obligations.RdpolyAnswersThePolynomial := by
  refine ⟨rfl, fun w hopc hlow => ?_, fun s hf => exec_clear hf .rdpoly, fun s t hs hstep hf => ?_⟩
  · exact answeredIllegal_of_formatN (by rw [opcField, hopc]; decide) hlow
  · obtain ⟨-, -, -, -, hkeeps⟩ := hardwiredStateNeverChanges s t hstep
    rw [← (hkeeps hs).poly]
    exact exec_clear hf .rdpoly

theorem execRdtbl_eq {s : State} (hf : s.faulted = false) (b : Byte) :
    exec (.rdtbl b) s = .next { s with responses := s.responses ++ [⟨.ok, tableAt s b⟩] } :=
  exec_clear hf (.rdtbl b)

/-- Settles O34: entry 0 is `tableGen_zero`, and an UPDATE from ACC = 0x00 looks up `0x00 ^ b = b`. -/
theorem rdtblAnswersTheTableEntry : Obligations.RdtblAnswersTheTableEntry := by
  refine ⟨fun b => encode_eq_append_imm8 (o := 0x06#8) rfl rfl (by decide), fun w hopc hmid => ?_,
    fun s b hf => execRdtbl_eq hf b, fun s hf => ?_,
    fun s b hf hacc => ⟨_, _, execRdtbl_eq hf b, execUpdate_eq hf b, ?_⟩⟩
  · exact answeredIllegal_of_formatB (by rw [opcField, hopc]; decide) hmid
  · rw [execRdtbl_eq hf, tableAt, tableGen_zero]
  · rw [hacc, BitVec.zero_xor]

/-! ### The commands that write ADDR and LEN -/

/-- SETADDRL keeps the high half of ADDR. -/
@[simp] theorem extractHigh_withLowHalf (a : Addr) (h : Half) :
    (withLowHalf a h).extractLsb' 16 16 = a.extractLsb' 16 16 :=
  BitVec.extractLsb'_append_eq_left

/-- SETADDRH keeps the low half of ADDR. -/
@[simp] theorem extractLow_withHighHalf (a : Addr) (h : Half) :
    (withHighHalf a h).extractLsb' 0 16 = a.extractLsb' 0 16 :=
  BitVec.extractLsb'_append_eq_right

/-- SETADDRL, SETADDRH and SETLEN can change nothing but ADDR, LEN and the responses, and each keeps the register, or the half of
ADDR, that it does not name. -/
theorem exec_registerWrite_eq {i : Instr} {s t : State} {h : Half} (hi : i = .setaddrl h ∨ i = .setaddrh h ∨ i = .setlen h)
    (hexec : exec i s = .next t) :
    ∃ a n rs, t = { s with addr := a, len := n, responses := rs } ∧
      (i = .setlen h → a = s.addr) ∧ (i ≠ .setlen h → n = s.len) ∧
      (i = .setaddrl h → a.extractLsb' 16 16 = s.addr.extractLsb' 16 16) ∧
      (i = .setaddrh h → a.extractLsb' 0 16 = s.addr.extractLsb' 0 16) := by
  obtain ⟨-, rfl⟩ | ⟨-, rfl⟩ := exec_cases hexec
  · exact ⟨s.addr, s.len, _, rfl, fun _ => rfl, fun _ => rfl, fun _ => rfl, fun _ => rfl⟩
  · obtain rfl | rfl | rfl := hi
    · exact ⟨_, s.len, _, rfl, nofun, fun _ => rfl, fun _ => extractHigh_withLowHalf s.addr h, nofun⟩
    · exact ⟨_, s.len, _, rfl, nofun, fun _ => rfl, nofun, fun _ => extractLow_withHighHalf s.addr h⟩
    · exact ⟨s.addr, h, _, rfl, fun _ => rfl, fun hne => absurd rfl hne, nofun, nofun⟩

/-- Settles O40: `exec_registerWrite_eq` names the fields that may change and says which of them each command keeps. -/
theorem frameOfRegisterWrites : Obligations.FrameOfRegisterWrites := by
  intro i s t h hi hexec
  obtain ⟨a, n, rs, rfl, hkeeps⟩ := exec_registerWrite_eq hi hexec
  exact ⟨rfl, rfl, rfl, rfl, rfl, rfl, rfl, rfl, fun _ => rfl, fun _ => rfl, hkeeps⟩

/-- Settles O35: SETADDRL's effect has no check in it. -/
theorem setaddrlWritesTheLowHalf : Obligations.SetaddrlWritesTheLowHalf :=
  ⟨fun _ => encode_eq_append_imm16 (o := 0x07#8) rfl rfl (by decide), fun _ _ => answeredIllegal_of_rsvField_ne,
    fun _ h hf => exec_clear hf (.setaddrl h)⟩

/-- The two halves of ADDR may be written in either order (R50). -/
theorem commandEffect_setaddr_comm (s : State) (lo hi : Half) :
    commandEffect (.setaddrh hi) (commandEffect (.setaddrl lo) s) =
      commandEffect (.setaddrl lo) (commandEffect (.setaddrh hi) s) := by
  simp [commandEffect, writeAddr, respond, withHighHalf_withLowHalf, withLowHalf_withHighHalf]

/-- Settles O36: in either order ADDR becomes the two halves and the responses are two of (OK, 0x00). -/
theorem setaddrhWritesTheHighHalf : Obligations.SetaddrhWritesTheHighHalf := by
  refine ⟨fun _ => encode_eq_append_imm16 (o := 0x08#8) rfl rfl (by decide), fun _ _ => answeredIllegal_of_rsvField_ne,
    fun s h hf => exec_clear hf (.setaddrh h), fun s lo hi hf => ?_⟩
  exact ⟨_, _, _, _, exec_clear hf _, exec_clear (s := commandEffect (.setaddrl lo) s) hf _, exec_clear hf _,
    exec_clear (s := commandEffect (.setaddrh hi) s) hf _, commandEffect_setaddr_comm s lo hi⟩

/-- Settles O37: after SETLEN 0 the buffer is empty, and CALC examines nothing. -/
theorem setlenWritesTheLength : Obligations.SetlenWritesTheLength := by
  refine ⟨fun _ => encode_eq_append_imm16 (o := 0x09#8) rfl rfl (by decide), fun _ _ => answeredIllegal_of_rsvField_ne,
    fun s h hf => exec_clear hf (.setlen h), fun s hf => ?_⟩
  refine ⟨_, _, exec_clear hf _, exec_clear (s := commandEffect (.setlen 0x0000#16) s) hf _, ?_⟩
  rw [commandEffect_calcCrc, calcEffect_empty rfl]
  rfl

end Sys2Proof.Machine
end

section
/-! The faulted state, the invariant and the priority of the conditions (60_exceptions.md R57 to R68). -/

namespace Sys2Proof.Machine

open Sys2Proof.Safety

/-! ### The faulted state (R60, R63) -/

/-- A faulted engine after the moves `ms`, none of them reset, with `rest` to come: each command among them is answered
(FAULT, 0x00), memory is as the host leaves it, and all else stays. -/
def faultedAfter (ms rest : List HostMove) (mem : Memory) (s : State) : State :=
  { s with
    inputs := rest, mem := mem,
    responses := s.responses ++ List.replicate (ms.countP isCommand) ⟨.fault, 0x00#8⟩ }

theorem faultedAfter_nil (s : State) : faultedAfter [] s.inputs s.mem s = s := by
  simp [faultedAfter]

theorem faultedAfter_faultedAfter (ms ns rest rest' : List HostMove) (mem mem' : Memory) (s : State) :
    faultedAfter ns rest' mem' (faultedAfter ms rest mem s) = faultedAfter (ms ++ ns) rest' mem' s := by
  simp [faultedAfter]

theorem step_of_faulted {s : State} {m : HostMove} {rest : List HostMove} (hf : s.faulted = true)
    (hin : s.inputs = m :: rest) (hm : m ≠ .reset) : ∃ mem, step s = .next (faultedAfter [m] rest mem s) := by
  rw [step_move hin]
  cases m with
  | command w => exact ⟨s.mem, commandStep_faulted (s := { s with inputs := rest }) hf w⟩
  | write a b => exact ⟨memSet s.mem a.toNat b, by simp [hostMove, hostWrite, faultedAfter, isCommand]⟩
  | reset => exact absurd rfl hm

theorem runFor_of_faulted (k : Nat) {s : State} (hf : s.faulted = true) (hms : ∀ m ∈ s.inputs.take k, m ≠ .reset) :
    ∃ mem, runFor k s = .next (faultedAfter (s.inputs.take k) (s.inputs.drop k) mem s) := by
  induction k generalizing s with
  | zero => exact ⟨s.mem, by simp [faultedAfter_nil]⟩
  | succ k ih =>
    match hin : s.inputs with
    | [] =>
      obtain ⟨mem, hrun⟩ := ih hf (by simp [hin])
      exact ⟨mem, by simpa [hin] using (runFor_succ (step_idle hin)).trans hrun⟩
    | m :: rest =>
      rw [hin, List.take_succ_cons, List.forall_mem_cons] at hms
      obtain ⟨hm, hrest⟩ := hms
      obtain ⟨mem, hstep⟩ := step_of_faulted hf hin hm
      obtain ⟨mem', hrun⟩ := ih (s := faultedAfter [m] rest mem s) hf hrest
      exact ⟨mem', ((runFor_succ hstep).trans hrun).trans (congrArg _ (faultedAfter_faultedAfter ..))⟩

/-- Settles O14: `runFor_of_faulted`, by induction on the steps; `faultedAfter` keeps the registers and the reads. -/
theorem faultedStateLastsUntilReset : Obligations.FaultedStateLastsUntilReset := by
  intro k s hf hms
  obtain ⟨mem, hrun⟩ := runFor_of_faulted k hf hms
  exact ⟨_, hrun, hf, rfl, rfl, rfl, rfl, rfl, rfl, rfl⟩

/-- Settles O13: the port and `exec` both answer FAULT, and every move but reset leaves FAULTED set. -/
theorem faultedEngineAnswersFault : Obligations.FaultedEngineAnswersFault := by
  refine ⟨fun s w rest hf hin => ?_, fun s i hf => exec_faulted hf i, fun s t hf h ht => ?_⟩
  · exact (step_move hin).trans (commandStep_faulted (s := { s with inputs := rest }) hf w)
  · match hin : s.inputs with
    | [] => simp [next_unique h (step_idle hin), hf] at ht
    | m :: rest =>
      by_cases hm : m = .reset
      · exact ⟨rest, by rw [hm]⟩
      · obtain ⟨mem, hstep⟩ := step_of_faulted hf hin hm
        simp [next_unique h hstep, faultedAfter, hf] at ht

/-- Settles O29: the whole state after a fault is `raise_fault`'s, and it is a faulted one. -/
theorem calcFaultEntersTheFaultedState : Obligations.CalcFaultEntersTheFaultedState := by
  intro s hf hb
  exact ⟨raise .fault s, execCalc_of_not_bufferOk hf hb, rfl, rfl, rfl, rfl, rfl, fun _ => rfl, rfl, rfl, rfl, rfl, rfl,
    exec_faulted rfl⟩

/-! ### The invariant -/

theorem readableIn_of_bufferOk {s : State} (hb : bufferOk s) {k : Nat} (hk : k < s.len.toNat) :
    readableIn s.readable (s.addr.toNat + k) = true := by
  obtain hlen | ⟨-, hread⟩ := hb
  · simp [hlen] at hk
  · exact hread k hk

/-- Every address a command adds to the record of reads is readable (R26). -/
theorem mem_commandEffect_reads {i : Instr} {s : State} {a : Nat} (ha : a ∈ (commandEffect i s).reads) :
    a ∈ s.reads ∨ readableIn s.readable a = true := by
  by_cases hsame : (commandEffect i s).reads = s.reads
  · exact .inl (hsame ▸ ha)
  · obtain rfl := commandEffect_reads_ne hsame
    by_cases hb : bufferOk s
    · rw [commandEffect_calcCrc, calcEffect_of_bufferOk hb, calcRead_eq] at ha
      obtain ha | ha := List.mem_append.1 ha
      · exact .inl ha
      · obtain ⟨k, hk, rfl⟩ := List.mem_map.1 ha
        exact .inr (readableIn_of_bufferOk hb (List.mem_range.1 hk))
    · rw [commandEffect_calcCrc, calcEffect_of_not_bufferOk hb] at ha
      exact .inl ha

/-- The command that sets FAULTED is answered (FAULT, 0x00) (R59). -/
theorem commandEffect_responses_of_faulted {i : Instr} {s : State} (hf : s.faulted = false)
    (hset : (commandEffect i s).faulted = true) :
    (commandEffect i s).responses = s.responses ++ [⟨.fault, 0x00#8⟩] := by
  obtain rfl := commandEffect_faulted_ne (i := i) (s := s) (by simp [hset, hf])
  by_cases hb : bufferOk s
  · simp [calcEffect_of_bufferOk hb, hf] at hset
  · rw [commandEffect_calcCrc, calcEffect_of_not_bufferOk hb]
    rfl

theorem inv_with_inputs {s : State} (hs : Inv s) (ms : List HostMove) : Inv { s with inputs := ms } where
  mem_wf := hs.mem_wf
  faulted_shows := hs.faulted_shows
  data_zero := hs.data_zero
  reads_admitted := hs.reads_admitted

/-- What one answer must be for the invariant to outlast it. -/
theorem inv_of_response {s t : State} {r : Response} (hs : Inv s) (hmem : t.mem = s.mem)
    (hreadable : t.readable = s.readable) (hresp : t.responses = s.responses ++ [r])
    (hdata : r.status ≠ .ok → r.data = 0x00#8) (hfault : t.faulted = true → r = ⟨.fault, 0x00#8⟩)
    (hreads : ∀ a ∈ t.reads, a ∈ s.reads ∨ readableIn s.readable a = true) : Inv t where
  mem_wf := hmem ▸ hs.mem_wf
  faulted_shows hset := by rw [hresp, List.getLast?_concat, hfault hset]
  data_zero q hq := by
    rw [hresp, List.mem_append, List.mem_singleton] at hq
    obtain hq | rfl := hq
    · exact hs.data_zero q hq
    · exact hdata
  reads_admitted a ha := by
    rw [hreadable]
    obtain hold | hnew := hreads a ha
    · exact hs.reads_admitted a hold
    · exact ⟨readableIn_lt_addrSpace hnew, hnew⟩

theorem inv_commandEffect {s : State} (hs : Inv s) (hf : s.faulted = false) (i : Instr) : Inv (commandEffect i s) := by
  obtain ⟨r, hresp, hdata⟩ := commandEffect_response i s
  obtain ⟨-, -, hreadable⟩ := parameters_eq_iff.1 (commandEffect_parameters i s)
  refine inv_of_response hs (commandEffect_mem i s) hreadable hresp hdata.notCompleted (fun hset => ?_)
    fun _ => mem_commandEffect_reads
  have hboth := hresp.symm.trans (commandEffect_responses_of_faulted hf hset)
  exact List.singleton_inj.1 (List.append_cancel_left hboth)

/-- Settles O22: each way of a step keeps the invariant; a command's answer is `inv_of_response`. -/
theorem everyStepKeepsTheInvariant : Obligations.EveryStepKeepsTheInvariant := by
  intro s t hs h
  cases step_cases h with
  | idle _ ht => exact ht ▸ hs
  | write a b rest _ ht => exact ht ▸ { inv_with_inputs hs rest with mem_wf := memSet_wf hs.mem_wf a.isLt b }
  | reset rest _ ht => exact ht ▸ { inv_with_inputs hs rest with faulted_shows := nofun }
  | faulted w rest _ _ ht =>
    subst ht
    exact inv_of_response hs rfl rfl rfl (fun _ => rfl) (fun _ => rfl) fun _ => .inl
  | illegal w rest _ hf _ ht =>
    subst ht
    exact inv_of_response hs rfl rfl rfl (fun _ => rfl) (fun hset => absurd hset (by simp [hf])) fun _ => .inl
  | effect w rest i _ hf _ ht => exact ht ▸ inv_commandEffect (inv_with_inputs hs rest) hf i

/-! ### Illegal words and the priority of the conditions (R58, R61) -/

theorem answeredIllegal_of_legal_eq_false {w : Word} (hw : legal w = false) : answeredIllegal w :=
  answeredIllegal_of_not_fieldsLegal (by simp [← legal_iff, hw])

theorem legal_eq_false_of_decode {w : Word} {e : Reject} (hw : decode w = .error e) : legal w = false := by
  rw [← Bool.not_eq_true, legal_iff_decodes, hw]
  exact nofun

/-- Settles O12: the illegal word leaves FAULTED clear, so the next word that decodes runs its instruction. -/
theorem illegalWordChangesNothing : Obligations.IllegalWordChangesNothing := by
  refine ⟨fun s w rest hf hin hw => answeredIllegal_of_legal_eq_false hw s rest hf hin,
    fun s w w' rest i hf hin hw hw' => ?_⟩
  rw [runFor_succ (answeredIllegal_of_legal_eq_false hw s _ hf hin), runFor_one]
  exact step_command rfl hw'

/-- A command completes with OK unless it is a CALC whose buffer may not be read. -/
theorem commandEffect_status_ok {i : Instr} {s : State} (hb : i = .calcCrc → bufferOk s) :
    ∃ d, (commandEffect i s).responses = s.responses ++ [⟨.ok, d⟩] := by
  cases i with
  | calcCrc => exact ⟨_, by rw [commandEffect_calcCrc, calcEffect_of_bufferOk (hb rfl), calcRead_responses]⟩
  | _ => exact ⟨_, rfl⟩

/-- Settles O16: the lines of R40's Step in order, and in the last of them CALC's two outcomes. -/
theorem conditionsHaveTheirPriority : Obligations.ConditionsHaveTheirPriority := by
  intro s w rest hin
  rw [step_move hin]
  obtain ⟨hf : s.faulted = true, h⟩ | ⟨hf : s.faulted = false, ⟨e, hw⟩, h⟩ | ⟨hf : s.faulted = false, i, hw, h⟩ :=
    commandStep_cases w { s with inputs := rest }
  · exact ⟨_, _, h, rfl, by simp [hf]⟩
  · have hcalc : w ≠ 0x03000000#32 := by
      rintro rfl
      simp [decode_calcWord] at hw
    exact ⟨_, _, h, rfl, by simp [hf, hcalc, legal_eq_false_of_decode hw]⟩
  · have hlegal : legal w = true := (legal_iff_decodes w).2 ⟨i, hw⟩
    by_cases hb : w = 0x03000000#32 → bufferOk s
    · have hok : i = .calcCrc → bufferOk s := fun hi => hb (eq_calcWord_of_decode (hi ▸ hw))
      obtain ⟨d, hresp⟩ := commandEffect_status_ok (s := { s with inputs := rest }) hok
      exact ⟨_, _, h, hresp, by simpa [hf, hlegal] using hb⟩
    · obtain ⟨hcalc, hbad⟩ := Classical.not_imp.1 hb
      obtain rfl : i = .calcCrc := Except.ok.inj (hw.symm.trans (hcalc ▸ decode_calcWord))
      have hfault := calcEffect_of_not_bufferOk (s := { s with inputs := rest }) hbad
      exact ⟨_, _, h.trans (congrArg _ hfault), rfl, by simpa [hf, hlegal, hbad] using hcalc⟩

/-! ### The host's other moves (R66, R68) -/

/-- Settles O11: the memory laws for the written byte and for the others. -/
theorem hostWriteChangesOneByte : Obligations.HostWriteChangesOneByte := by
  intro s a b rest hwf hin
  exact ⟨memSet s.mem a.toNat b, step_move hin, memSet_wf hwf a.isLt b, memByte_memSet_same hwf _ b,
    fun _ => memByte_memSet_other hwf b⟩

/-- Settles O10: `step_idle`. -/
theorem idleEngineKeepsAllState : Obligations.IdleEngineKeepsAllState :=
  fun _ => step_idle

end Sys2Proof.Machine
end

section
/-! Reset, and two moves in a row (70_reset_and_hazards.md R70, R72, R73): the second runs in the whole state the first leaves. -/

namespace Sys2Proof.Machine

open Sys2Proof.Safety

/-! ### A command does not see the moves still to come -/

theorem calcEffect_with_inputs (s : State) (ms : List HostMove) :
    calcEffect { s with inputs := ms } = { calcEffect s with inputs := ms } := by
  by_cases hb : bufferOk s
  · rw [calcEffect_of_bufferOk hb, calcEffect_of_bufferOk (s := { s with inputs := ms }) hb]
    rfl
  · rw [calcEffect_of_not_bufferOk hb, calcEffect_of_not_bufferOk (s := { s with inputs := ms }) hb]
    rfl

theorem commandEffect_with_inputs (i : Instr) (s : State) (ms : List HostMove) :
    commandEffect i { s with inputs := ms } = { commandEffect i s with inputs := ms } := by
  cases i with
  | calcCrc => exact calcEffect_with_inputs s ms
  | _ => rfl

theorem exec_with_inputs {i : Instr} {s t : State} (h : exec i s = .next t) (ms : List HostMove) :
    exec i { s with inputs := ms } = .next { t with inputs := ms } := by
  obtain ⟨hf, rfl⟩ | ⟨hf, rfl⟩ := exec_cases h
  · exact exec_faulted (s := { s with inputs := ms }) hf i
  · rw [exec_clear (s := { s with inputs := ms }) hf, commandEffect_with_inputs]

theorem exec_inputs {i : Instr} {s t : State} (h : exec i s = .next t) : t.inputs = s.inputs := by
  obtain ⟨-, rfl⟩ | ⟨-, rfl⟩ := exec_cases h
  · rfl
  · exact commandEffect_inputs i s

/-! ### Two commands in a row (R73) -/

/-- Settles O17: the first command has the same effect while the second still waits, and the second is then the next move. -/
theorem nextCommandSeesAllEffects : Obligations.NextCommandSeesAllEffects := by
  intro s t w w' rest i j hin hw hw' ht
  obtain rfl : t.inputs = rest := exec_inputs ht
  have hfirst : step s = .next { t with inputs := .command w' :: t.inputs } :=
    (step_command hin hw).trans (exec_with_inputs ht _)
  rw [runFor_succ hfirst, runFor_one]
  exact step_command rfl hw'

/-- Settles O18: two UPDATEs are a fold of two bytes, and after SETLEN the CALC finds the buffer of the new LEN. -/
theorem backToBackCommandsHaveNoHazard : Obligations.BackToBackCommandsHaveNoHazard := by
  refine ⟨fun s b c rest hf hin => ⟨_, runFor_updates (ds := [b, c]) hf hin, rfl⟩, fun s n rest hf hin hb => ?_⟩
  refine ⟨_, (runFor_encode hf hin).trans ((runFor_one _).trans (step_calc_of_bufferOk rfl hf hb)), rfl, hf, ?_⟩
  exact calcRead_acc _

/-! ### Reset (R70, R72) -/

theorem step_reset {s : State} {rest : List HostMove} (hin : s.inputs = .reset :: rest) :
    step s = .next (applyReset { s with inputs := rest }) :=
  step_move hin

/-- Settles O20: reset leaves LEN at zero and FAULTED clear, so the CALC after it is one of an empty buffer. -/
theorem calcRightAfterResetAnswersZero : Obligations.CalcRightAfterResetAnswersZero := by
  refine ⟨fun s rest hin => step_reset hin, fun s rest hin => ?_⟩
  rw [runFor_succ (step_reset hin), runFor_one, step_command rfl decode_calcWord, exec_clear rfl, commandEffect_calcCrc,
    calcEffect_empty rfl]
  rfl

end Sys2Proof.Machine
end
